-- ==== Sys2Proof/Word.lean ====
section
/-! DEFINITION. The word types of the core: bytes, 32-bit words, the 16-byte block seen as four columns, the eight-word
hash value. Only the types stand here; every operation on them is in Sys2Proof/Machine/. -/

namespace Sys2Proof

/-- A byte, an integer 0 to 255 (00_scope.md section 6.1). -/
abbrev Byte := BitVec 8

/-- A 32-bit word (00_scope.md section 6.1). -/
abbrev Word := BitVec 32

/-- Four bytes: a column of the AES state, row 0 first (R121), and an AES key word `[b0, b1, b2, b3]`, most significant
byte first (R127). -/
structure Column where
  r0 : Byte
  r1 : Byte
  r2 : Byte
  r3 : Byte
  deriving DecidableEq, Repr, Inhabited

/-- Sixteen bytes: an AES block or state, a key, an IV. Byte `i` is row `i mod 4` of column `i / 4` (R121, R122). -/
structure Block where
  c0 : Column
  c1 : Column
  c2 : Column
  c3 : Column
  deriving DecidableEq, Repr, Inhabited

/-- Eight words: the hash value `H[0..7]` (fields `a` to `h` are `H[0]` to `H[7]`) and the working variables `a` to `h`
(R35, R168). -/
structure HashState where
  a : Word
  b : Word
  c : Word
  d : Word
  e : Word
  f : Word
  g : Word
  h : Word
  deriving DecidableEq, Repr, Inhabited

end Sys2Proof
end

