-- ==== Sys2Proof/Config.lean ====
section
/-! DEFINITION. What the spec fixes once for the core (R10, R11), the open parameter PT_MAX as the reset state takes it,
and the free values: constants without a body, of which Lean can prove nothing but their type. -/

namespace Sys2Proof.Config

/-- `BLK` = `KEYLEN` = `IVLEN`: block, key and IV length in bytes (R10). -/
def blk : Nat := 16

/-- `DIGLEN`: length of the digest field in bytes (R10). -/
def digLen : Nat := 64

/-- `MINBLOB` = `IVLEN + DIGLEN`: the least length that passes step 1 of DECRYPT (R10, R231). -/
def minBlob : Nat := 80

/-- `NALPHA`: size of the key alphabet (R10, R102). -/
abbrev nAlpha : Nat := 62

/-- The bound of PT_MAX: `0 <= PT_MAX <= 2^61 - 1` (R12), so PT_MAX is a member of `Fin ptBound`. -/
abbrev ptBound : Nat := 2 ^ 61

/-- PT_MAX of `State.reset`. DESIGN CHOICE (log entry 1), unsafe: the spec leaves PT_MAX open (R12) and has the model take
it as an argument, which here is the field `ptMax` of State; the reset state needs one value, and this is the greatest
the spec allows, under which the core is as unconstrained as SHA-256 permits (92_eei_decisions.md D10). -/
def ptMax : Fin ptBound := ⟨2 ^ 61 - 1, by decide⟩

/-- The CSRNG's answer to the `n`-th draw of the run when that draw is `draw_bytes(16)` and no RNG line of the script
fixes it: any 16 bytes, or `none` for a draw that is never answered (R190, R191, R196). A FREE VALUE (log entry 2). -/
opaque freeBytes : Nat → Option Block

/-- The CSRNG's answer to the `n`-th draw of the run when that draw is `draw_index(16)` and no RNG line of the script
fixes it: any 16 numbers in 0 to 61, or `none` for a draw that is never answered (R190, R192, R196). A FREE VALUE (log
entry 2). -/
opaque freeIndexes : Nat → Option (Vector (Fin nAlpha) 16)

/-- The hash value of a message longer than `2^61 - 1` bytes, to which the spec gives none (R164, D26). A FREE VALUE (log
entry 3); accept lets no command reach it. -/
opaque shaOutOfDomain : List Byte → HashState

end Sys2Proof.Config
end

