-- ==== Sys2Proof/Machine/Params.lean ====
section
/-! DEFINITION. The quantities that follow from the parameter PT_MAX (R12). -/

namespace Sys2Proof.Machine

/-- `BUF_CAP = 80 + 16 * (floor(PT_MAX / 16) + 1)`: the capacity in bytes of IBUF and of OBUF (R12). -/
def bufCap (ptMax : Fin Config.ptBound) : Nat := 80 + 16 * (ptMax.val / 16 + 1)

/-- `LEN_W`: the width in bits of ILEN and OLEN, the least `w` with `2^w > BUF_CAP` (R12). -/
def lenW (ptMax : Fin Config.ptBound) : Nat := Nat.log2 (bufCap ptMax) + 1

end Sys2Proof.Machine
end

