-- ==== Sys2Proof/Machine/Transaction.lean ====
section
/-! DEFINITION. What happens at the core's boundary, as data: the host's four transactions and the three other lines a
script may hold (R60, R106). A script is a list of lines; it is the model's input. -/

namespace Sys2Proof.Machine

/-- A value that crosses the interface in a transaction on a control/status register, at one of the three widths a
register can have (R29, R73): 8 bits, `LEN_W` bits (a number, no byte order, R70), 16 bytes. -/
inductive CsrValue where
  /-- The value of an 8-bit register: CMD, STATUS, ERR, every unassigned number. -/
  | byte (v : Byte)
  /-- The value of ILEN or OLEN. -/
  | len (v : Nat)
  /-- The value of KEY, 16 bytes, byte `i` being character `i` of the key (R22). -/
  | key (v : Block)
  deriving DecidableEq, Repr

/-- What an `RNG` line of a script fixes: the CSRNG's answer to the draw of the next SEQ step (R106). -/
inductive RngAnswer where
  /-- `RNG <hex bytes>`: the answer to `draw_bytes(16)` (R191). -/
  | bytes (v : Block)
  /-- `RNG idx <16 numbers>`: the answer to `draw_index(16)`, each number in 0 to 61 (R192). -/
  | indexes (v : Vector (Fin Config.nAlpha) 16)
  /-- `RNG starve`: the draw is never answered (R196). -/
  | starve
  deriving DecidableEq, Repr

/-- A line of a script (R106): a transaction of the HOST agent (R60), or what another agent does here. -/
inductive Line where
  /-- `CSRW n, v`: `CsrWrite(n, v)` (R62). -/
  | csrWrite (n : Nat) (v : CsrValue)
  /-- `CSRR n`: `CsrRead(n)` (R61). -/
  | csrRead (n : Nat)
  /-- `IBW i, b`: `IbufWrite(i, b)` (R63). -/
  | ibufWrite (i : Nat) (b : Byte)
  /-- `OBR i`: `ObufRead(i)` (R64). -/
  | obufRead (i : Nat)
  /-- `SEQ`: the sequencer takes its step here (R252). -/
  | seq
  /-- `RNG ...`: what the CSRNG answers to the draw of the next SEQ step (R190). -/
  | rng (a : RngAnswer)
  /-- `RESET`: the environment resets the core here (R300). -/
  | reset
  deriving DecidableEq, Repr

end Sys2Proof.Machine
end

