-- ==== Sys2Proof/Syntax.lean ====
section
/-! DEFINITION. The instructions: the four commands of the opcode table (R3, R91). No command has an operand field; the
operands of each are fixed places of the state (R90, R92). -/

namespace Sys2Proof

/-- A command of the core, one constructor per row of spec/opcode_table.json (R3, R91). -/
inductive Instr where
  /-- GENKEY: draw a 16-character key into KEY (R195). -/
  | genkey
  /-- ENCRYPT: the plaintext of IBUF into a blob in OBUF (R210). -/
  | encrypt
  /-- DECRYPT: the blob of IBUF into a plaintext in OBUF, or a failure code (R230). -/
  | decrypt
  /-- CLEAR: zeroise KEY, ILEN, IBUF and the result (R254). -/
  | clear
  deriving DecidableEq, Repr

end Sys2Proof
end

