-- ==== Sys2Proof/WellFormed.lean ====
section
/-! DEFINITION. What is well formed: every command (it has no operand that could be out of range, R90, R94), and a line
of a script whose value has the width of the register it is written to (R60, R73). -/

namespace Sys2Proof

/-- A command has no register field, no immediate and no mode bit (R90), so each constructor is well formed as it is. -/
def Instr.wellFormed : Instr → Bool
  | .genkey => true
  | .encrypt => true
  | .decrypt => true
  | .clear => true

namespace Machine

/-- "`v` has the width of register `n`" (R60; the widths are those of R29): `LEN_W` bits for ILEN (0x03) and OLEN (0x04),
16 bytes for KEY (0x05), 8 bits for every other number. -/
def CsrValue.hasWidthOf (ptMax : Fin Config.ptBound) (n : Nat) : CsrValue → Bool
  | .byte _ => n != 0x03 && n != 0x04 && n != 0x05
  | .len v => (n == 0x03 || n == 0x04) && decide (v < 2 ^ lenW ptMax)
  | .key _ => n == 0x05

/-- A line that can stand in a script: of all lines only `CsrWrite` carries a value with a width to respect. -/
def Line.wellFormed (ptMax : Fin Config.ptBound) : Line → Bool
  | .csrWrite n v => v.hasWidthOf ptMax n
  | .csrRead _ => true
  | .ibufWrite _ _ => true
  | .obufRead _ => true
  | .seq => true
  | .rng _ => true
  | .reset => true

end Machine
end Sys2Proof
end

