-- ==== Sys2Proof/Decode.lean ====
section
/-! DEFINITION. The one command format CMD8 (R90): the opcode map, the decoder, total on all bytes and rejecting by name,
and the encoder. -/

namespace Sys2Proof

/-- A row of the opcode map of R91: a value `v` selects it when `(v AND mask) = pattern`. -/
structure OpcodeRow where
  mask : Byte
  pattern : Byte
  instr : Instr
  deriving DecidableEq, Repr

/-- The opcode map (R91). -/
def opcodeMap : List OpcodeRow :=
  [⟨0xFF, 0x01, .genkey⟩, ⟨0xFF, 0x02, .encrypt⟩, ⟨0xFF, 0x03, .decrypt⟩, ⟨0xFF, 0x04, .clear⟩]

/-- Why bytes are no command. -/
inductive DecodeReject where
  /-- There is no byte to decode. -/
  | noByte
  /-- The value is none of 0x01 to 0x04: 0x00 and 0x05 to 0xFF are illegal (R93). -/
  | illegalOpcode (v : Byte)
  deriving DecidableEq, Repr

/-- The command an 8-bit value selects (R91), or its rejection (R93). -/
def decodeByte (v : Byte) : Except DecodeReject Instr :=
  match opcodeMap.find? (fun r => v &&& r.mask == r.pattern) with
  | some r => .ok r.instr
  | none => .error (.illegalOpcode v)

/-- The decoder on a byte string: one command is one byte (R90); the rest of the string is given back. -/
def decode : List Byte → Except DecodeReject (Instr × List Byte)
  | [] => .error .noByte
  | v :: rest =>
    match decodeByte v with
    | .ok i => .ok (i, rest)
    | .error e => .error e

/-- The opcode of a command (R91). -/
def Instr.opcode : Instr → Byte
  | .genkey => 0x01
  | .encrypt => 0x02
  | .decrypt => 0x03
  | .clear => 0x04

/-- The encoder: the one byte of a command (R90, R91). -/
def encode (i : Instr) : List Byte := [i.opcode]

/-- The command read from an instruction of `nbits` bits whose bits are `w`, bit 0 the least significant of the first
byte. Bits above `nbits` are 0. The byte written to CMD is the first byte (R90). -/
def decodeTableWord (nbits w : Nat) : Option Instr :=
  match decode [BitVec.ofNat 8 (w % 2 ^ nbits)] with
  | .ok (i, _) => some i
  | .error _ => none

end Sys2Proof
end

