-- ==== Sys2Proof/Machine/State.lean ====
section
/-! DEFINITION. The state of one core as plain data, the reasons a step can stop, and the state after reset. -/

namespace Sys2Proof.Machine

/-- The sequencer phase, which stands in the place of a program counter (R25). -/
inductive Phase where
  /-- No command in flight. -/
  | idle
  /-- A command is in flight. -/
  | busy
  /-- The CSRNG starved; only reset leads out. -/
  | fatal
  deriving DecidableEq, Repr

/-- The closed set of failures (R260): the three kinds of the source, three protocol errors, and the fatal one. These are
results of the core, not stops of the model: each is a next state in which ERROR is 1 and ERR holds its code. -/
inductive Failure where
  | malformedBlob
  | decryptionFailed
  | integrityMismatch
  | illegalCommand
  | noKey
  | lengthRange
  | entropyFatal
  deriving DecidableEq, Repr

/-- IBUF or OBUF as sparse memory: pairs of an index and a byte, the indexes strictly rising, no byte 0x00; an index that
is not listed reads as 0x00, which is what reset leaves in IBUF and what an emptied OBUF reads as (R39, R64; log entry 8). -/
abbrev Memory := List Host.Cell

/-- The working registers of the AES unit (R34) and of the SHA unit (R35). A command is one atomic step (R252) at whose end
all of them are zeroised (R37), so their values inside a command are seen by nothing (R36; log entry 10). -/
structure Work where
  /-- `w[0..43]`, the expanded key. -/
  w : Vector Word 44
  /-- `S`, the cipher state. -/
  s : Block
  /-- `CHAIN`, the previous ciphertext block or the IV. -/
  chain : Block
  /-- `IVR`, the IV. -/
  ivr : Block
  /-- `H[0..7]`, the hash value. -/
  hash : HashState
  /-- `W[0..63]`, the message schedule. -/
  sched : Vector Word 64
  /-- `a` to `h`, the working variables. -/
  vars : HashState
  /-- `MLEN`, the message length in bits. -/
  mlen : BitVec 64
  /-- `DIG`, the hex digest. -/
  dig : Vector Byte 64
  deriving DecidableEq, Repr

/-- The MODEL's own fields, none of them state of the core (R20): what the other agents will do, and what the host has
been told (log entry 7). -/
structure Env where
  /-- The lines still to come, the next one first (R106); which agent steps next is what stands at its head. -/
  script : List Line
  /-- What the last RNG line fixed for the draw of the next SEQ step, if there was one since the last SEQ step. -/
  rng : Option RngAnswer
  /-- The number of draws made so far: the index of the next free value of the CSRNG (log entry 2). -/
  drawn : Nat
  /-- The values returned to the host by reads, the latest first (R61, R64). -/
  replies : List CsrValue
  deriving DecidableEq, Repr

/-- The state of one core (R20), with the parameter PT_MAX it was built with (R12, R21; no step changes it) and the
model's own `env`. -/
structure State where
  /-- PT_MAX, an argument of the step (R12). -/
  ptMax : Fin Config.ptBound
  /-- KEY, 16 bytes (R22). -/
  key : Block
  /-- KEY_VALID (R24). -/
  keyValid : Bool
  /-- PHASE (R25). -/
  phase : Phase
  /-- The flag DONE (R27). -/
  done : Bool
  /-- The flag ERROR (R27). -/
  error : Bool
  /-- ERR, 8 bits (R32). -/
  err : Byte
  /-- ILEN, `LEN_W` bits, a number (R30, R70, R258). -/
  ilen : Nat
  /-- IBUF, `BUF_CAP` bytes (R30). -/
  ibuf : Memory
  /-- OLEN, `LEN_W` bits, a number (R31, R70, R258). -/
  olen : Nat
  /-- OBUF, `BUF_CAP` bytes (R31). -/
  obuf : Memory
  /-- CMDL, the opcode latched at accept (R33). -/
  cmdl : Byte
  /-- The working registers (R34, R35). -/
  work : Work
  /-- The model's own fields. -/
  env : Env
  deriving DecidableEq, Repr

/-- Why a step stops with a fault. Both are safe: the model stops where no step of the core is given. -/
inductive Fault where
  /-- PHASE is FATAL and the script holds no further line: "A state with PHASE = FATAL has no enabled step but reset; it is
  a fault state, not a result" (R316). Raised by `step`; safe. -/
  | entropyFatal
  /-- PHASE is BUSY and CMDL holds no opcode: accept latches only 0x01 to 0x04 (R250, R251), so no run reaches this and the
  spec gives it no step (R252). Raised by `seqStep`; safe. -/
  | illegalLatch
  deriving DecidableEq, Repr

/-- Why a step is refused. -/
inductive Refusal where
  /-- The instruction has no meaning in the model yet. Raised by an arm of `exec`; safe. -/
  | notModelled (mnemonic : String)
  /-- A script line writes a value that has not the width of the register: no such transaction crosses the interface
  (R60). Raised by `runLine`; safe. -/
  | malformedTransaction
  /-- A script line says SEQ where PHASE is not BUSY: "The SEQ step is enabled exactly when PHASE = BUSY" (R252). Raised by
  `takeLine`; safe. -/
  | sequencerNotEnabled
  deriving DecidableEq, Repr

/-- Sixteen bytes of 0x00: KEY after reset (R39) and KEY as read while it is gated (R61). -/
def zeroBlock : Block := ⟨⟨0, 0, 0, 0⟩, ⟨0, 0, 0, 0⟩, ⟨0, 0, 0, 0⟩, ⟨0, 0, 0, 0⟩⟩

/-- Every working register zero (R37, R39). -/
def zeroWork : Work where
  w := Vector.replicate 44 0
  s := zeroBlock
  chain := zeroBlock
  ivr := zeroBlock
  hash := ⟨0, 0, 0, 0, 0, 0, 0, 0⟩
  sched := Vector.replicate 64 0
  vars := ⟨0, 0, 0, 0, 0, 0, 0, 0⟩
  mlen := 0
  dig := Vector.replicate 64 0

/-- Nothing to come, nothing said. -/
def emptyEnv : Env := ⟨[], none, 0, []⟩

/-- The state right after reset of a core built with PT_MAX = `p` (R39). -/
def State.resetWith (p : Fin Config.ptBound) : State where
  ptMax := p
  key := zeroBlock
  keyValid := false
  phase := .idle
  done := false
  error := false
  err := 0x00
  ilen := 0
  ibuf := []
  olen := 0
  obuf := []
  cmdl := 0x00
  work := zeroWork
  env := emptyEnv

/-- The state right after reset (R39), with PT_MAX as `Config.ptMax` has it (log entry 1). -/
def State.reset : State := State.resetWith Config.ptMax

end Sys2Proof.Machine
end

