-- ==== Sys2Proof/Machine/Operands.lean ====
section
/-! DEFINITION. The operand forms of the commands: byte strings, 16-byte blocks, columns and words, and the bytes of a
buffer as a byte string in index order (R70, R71). -/

namespace Sys2Proof

/-- The four bytes of a column, row 0 first; of a key word, most significant first (R121, R127). -/
def Column.toBytes (c : Column) : List Byte := [c.r0, c.r1, c.r2, c.r3]

/-- XOR of two columns, byte by byte (R120). -/
def Column.xor (x y : Column) : Column := ⟨x.r0 ^^^ y.r0, x.r1 ^^^ y.r1, x.r2 ^^^ y.r2, x.r3 ^^^ y.r3⟩

/-- A function on bytes applied to each of the four bytes. -/
def Column.map (f : Byte → Byte) (c : Column) : Column := ⟨f c.r0, f c.r1, f c.r2, f c.r3⟩

/-- The 16 bytes of a block in order: the block fills the state column by column (R121). -/
def Block.toBytes (b : Block) : List Byte := b.c0.toBytes ++ b.c1.toBytes ++ b.c2.toBytes ++ b.c3.toBytes

/-- The block whose byte `i` is `f i`. -/
def Block.ofFn (f : Fin 16 → Byte) : Block :=
  ⟨⟨f 0, f 1, f 2, f 3⟩, ⟨f 4, f 5, f 6, f 7⟩, ⟨f 8, f 9, f 10, f 11⟩, ⟨f 12, f 13, f 14, f 15⟩⟩

/-- The block of the first 16 bytes of a byte string; a missing byte reads as 0x00 (no caller leaves one missing). -/
def Block.ofBytes (l : List Byte) : Block := Block.ofFn fun i => l.getD i.val 0

/-- Byte `i` of a block. -/
def Block.get (b : Block) (i : Fin 16) : Byte := b.toBytes.getD i.val 0

/-- XOR of two blocks, byte by byte (R120, R140). -/
def Block.xor (x y : Block) : Block := ⟨x.c0.xor y.c0, x.c1.xor y.c1, x.c2.xor y.c2, x.c3.xor y.c3⟩

/-- A function on bytes applied to each of the 16 bytes. -/
def Block.map (f : Byte → Byte) (b : Block) : Block := ⟨b.c0.map f, b.c1.map f, b.c2.map f, b.c3.map f⟩

namespace Machine

/-- Entry `i`, from the left, of a line of a table that holds `n` entries of `w` bits each, the line read as one number: the form in
which the spec's tables (R104, R123, R124, R162) are written down here. -/
def lineEntry (w n line i : Nat) : BitVec w := BitVec.ofNat w (line >>> (w * (n - 1 - i)))

/-- `s[i..j)`: the bytes `i` to `j - 1` of a byte string (00_scope.md section 6.1). -/
def slice (s : List Byte) (i j : Nat) : List Byte := (s.take j).drop i

/-- `M_j = M[16j .. 16j+16)`: the whole 16-byte blocks of a byte string, in order (R140). -/
def toBlocks (m : List Byte) : List Block := (List.range (m.length / 16)).map fun j => Block.ofBytes (m.drop (16 * j))

/-- The blocks of a byte string written one after the other (R141, R142). -/
def ofBlocks (bs : List Block) : List Byte := bs.flatMap Block.toBytes

/-- `word(B, t)` on the four bytes of a word, the first most significant (R166). -/
def wordOfBytes (b0 b1 b2 b3 : Byte) : Word := b0 ++ b1 ++ b2 ++ b3

/-- A word as four bytes, most significant first: `w[31:24], w[23:16], w[15:8], w[7:0]` (00_scope.md section 6.1, R170). -/
def wordToBytes (w : Word) : List Byte :=
  [w.extractLsb' 24 8, w.extractLsb' 16 8, w.extractLsb' 8 8, w.extractLsb' 0 8]

/-- `be64(v)`: the 8 bytes of the 64-bit number `v`, most significant first (R165). -/
def be64 (v : Nat) : List Byte :=
  [56, 48, 40, 32, 24, 16, 8, 0].map fun k => (BitVec.ofNat 64 v).extractLsb' k 8

end Machine
end Sys2Proof
end

