-- ==== Sys2Proof/Machine/Flags.lean ====
section
/-! DEFINITION. The flags: how STATUS is composed, the failure codes, and the settings of DONE, ERROR, ERR that accept and
completion make (R26, R27, R32, R260). -/

namespace Sys2Proof.Machine

/-- Bit `n` of a byte, set when `c` holds. -/
def flagBit (n : Nat) (c : Bool) : Byte := if c then 1#8 <<< n else 0#8

/-- STATUS as composed at the instant of the read: bit 0 BUSY, 1 DONE, 2 ERROR, 3 FATAL, 4 KEY_VALID, bits 7:5 zero
(R26). -/
def statusByte (s : State) : Byte :=
  flagBit 0 (s.phase == .busy) ||| flagBit 1 s.done ||| flagBit 2 s.error ||| flagBit 3 (s.phase == .fatal) |||
    flagBit 4 s.keyValid

/-- The value each failure leaves in ERR (R260). -/
@[simp] def Failure.code : Failure → Byte
  | .malformedBlob => 0x01
  | .decryptionFailed => 0x02
  | .integrityMismatch => 0x03
  | .illegalCommand => 0x10
  | .noKey => 0x11
  | .lengthRange => 0x12
  | .entropyFatal => 0xFF

/-- The phase a failure ends in: FATAL for EntropyFatal, IDLE for every other (R266, R196). -/
@[simp] def Failure.endPhase : Failure → Phase
  | .malformedBlob => .idle
  | .decryptionFailed => .idle
  | .integrityMismatch => .idle
  | .illegalCommand => .idle
  | .noKey => .idle
  | .lengthRange => .idle
  | .entropyFatal => .fatal

/-- `DONE <- 0; ERROR <- 0; ERR <- 0x00` of accept (R250). -/
def clearFlags (s : State) : State := { s with done := false, error := false, err := 0x00 }

/-- `ERROR <- 1; ERR <- code(E)`; DONE stays as it is (R266). -/
def setFailure (e : Failure) (s : State) : State := { s with error := true, err := e.code }

/-- `DONE <- 1` of a completion; ERROR and ERR stay as accept left them (R27). -/
def setDone (s : State) : State := { s with done := true }

end Sys2Proof.Machine
end

