-- ==== Sys2Proof/Machine/Ops.lean ====
section
/-! DEFINITION. The named operations over the buffers and registers: sparse memory, the host's four transactions, accept
with its checks, the end of a command by result or by failure, the draws, and reset. -/

namespace Sys2Proof.Machine

/-! ### The buffers -/

/-- The byte at index `a`; 0x00 where nothing is listed (R39, R64). -/
def Memory.read : Memory → Nat → Byte
  | [], _ => 0
  | (k, v) :: m, a => if k = a then v else Memory.read m a

/-- Byte `b` stored at index `a`, the canonical form kept: indexes rising, no 0x00 listed. -/
def Memory.write : Memory → Nat → Byte → Memory
  | [], a, b => if b = 0 then [] else [(a, b)]
  | (k, v) :: m, a, b =>
    if a < k then (if b = 0 then (k, v) :: m else (a, b) :: (k, v) :: m)
    else if a = k then (if b = 0 then m else (a, b) :: m)
    else (k, v) :: Memory.write m a b

/-- Every index of the list is at least `lo`, the indexes rise strictly and no byte is 0x00. -/
def Memory.wfFrom (lo : Nat) : Memory → Bool
  | [] => true
  | (k, v) :: m => decide (lo ≤ k) && v != 0 && Memory.wfFrom (k + 1) m

/-- The canonical form of a buffer. -/
def Memory.wf (m : Memory) : Bool := Memory.wfFrom 0 m

/-- Every listed index is below `n`. -/
def Memory.below (n : Nat) (m : Memory) : Bool := m.all fun c => decide (c.1 < n)

/-- `MemRead(space, a, n)`: the `n` bytes at indexes `a` to `a + n - 1` (00_scope.md section 6.2, R68). -/
def memRead (m : Memory) (a n : Nat) : List Byte := (List.range n).map fun i => Memory.read m (a + i)

/-- `MemWrite(space, a, n, v)`: the byte string stored from index `a` on (00_scope.md section 6.2, R68). -/
def memWrite (m : Memory) (a : Nat) : List Byte → Memory
  | [] => m
  | b :: bs => memWrite (Memory.write m a b) (a + 1) bs

/-! ### Ends of a command -/

/-- CMDL and every working register zeroised (R37). -/
def zeroise (s : State) : State := { s with cmdl := 0x00, work := zeroWork }

/-- `OLEN <- 0`, which empties OBUF (R31, R250). -/
def clearOutput (s : State) : State := { s with olen := 0, obuf := [] }

/-- `raise E`, the end of a command by failure, for all seven kinds (R266; for EntropyFatal R196): OLEN 0, ERROR 1, ERR the
code, CMDL and the working registers zero, PHASE to IDLE, or to FATAL for EntropyFatal. Nothing else is saved or changed. -/
def raise (e : Failure) (s : State) : State :=
  { zeroise (setFailure e (clearOutput s)) with phase := e.endPhase }

/-- The end of a command by its result: DONE 1, CMDL and the working registers zero, PHASE to IDLE (R27, R37, R252). -/
def complete (s : State) : State := { zeroise (setDone s) with phase := .idle }

/-! ### Accept -/

/-- `check(v)`: the protocol checks in their order; the first that applies is the result (R251). -/
def check (v : Byte) (s : State) : Option Failure :=
  match decodeByte v with
  | .error _ => some .illegalCommand
  | .ok .genkey => none
  | .ok .clear => none
  | .ok .encrypt => if !s.keyValid then some .noKey else if s.ptMax.val < s.ilen then some .lengthRange else none
  | .ok .decrypt => if !s.keyValid then some .noKey else if bufCap s.ptMax < s.ilen then some .lengthRange else none

/-- A legal command taken: `CMDL <- v; PHASE <- BUSY` (R250). -/
def latch (v : Byte) (s : State) : State := { s with cmdl := v, phase := .busy }

/-- `accept(v)`: the last result cleared for every `v`, then the checks, then a protocol error or BUSY (R250). -/
def accept (v : Byte) (s : State) : State :=
  match check v s with
  | some e => raise e (clearOutput (clearFlags s))
  | none => latch v (clearOutput (clearFlags s))

/-! ### The host's transactions -/

/-- The value `CsrRead(n)` returns (R61): KEY is gated by PHASE, an unassigned number and CMD read as 0x00. -/
def csrReadValue (n : Nat) (s : State) : CsrValue :=
  match n with
  | 0x00 => .byte 0x00
  | 0x01 => .byte (statusByte s)
  | 0x02 => .byte s.err
  | 0x03 => .len s.ilen
  | 0x04 => .len s.olen
  | 0x05 => .key (if s.phase = .idle then s.key else zeroBlock)
  | _ => .byte 0x00

/-- The byte `ObufRead(i)` returns: `OBUF[i]` when PHASE is IDLE and `i < OLEN`, else 0x00 (R64). -/
def obufReadValue (i : Nat) (s : State) : Byte :=
  if s.phase = .idle ∧ i < s.olen then Memory.read s.obuf i else 0x00

/-- A read returns its value to the host and changes nothing else (R61, R64, R73). -/
def reply (v : CsrValue) (s : State) : State := { s with env := { s.env with replies := v :: s.env.replies } }

/-- `CsrWrite(n, v)` in IDLE (R62): CMD starts a command, ILEN and KEY are stored, every other number drops the write. A
value of another width than the register's crosses the interface in no transaction (R60) and is refused before. -/
def csrWriteIdle (n : Nat) (v : CsrValue) (s : State) : State :=
  match n, v with
  | 0x00, .byte b => accept b s
  | 0x03, .len l => { s with ilen := l }
  | 0x05, .key k => { s with key := k, keyValid := true }
  | _, _ => s

/-- `CsrWrite(n, v)` (R62): dropped without trace when PHASE is not IDLE (R65). -/
def csrWrite (n : Nat) (v : CsrValue) (s : State) : State :=
  if s.phase = .idle then csrWriteIdle n v s else s

/-- `IbufWrite(i, b)` (R63): taken when PHASE is IDLE and `i < BUF_CAP`, else dropped without trace (R65). -/
def ibufWrite (i : Nat) (b : Byte) (s : State) : State :=
  if s.phase = .idle ∧ i < bufCap s.ptMax then { s with ibuf := Memory.write s.ibuf i b } else s

/-! ### The draws -/

/-- The CSRNG's answer to `draw_bytes(16)` (R191): what the script fixed for it, else a free value (log entry 2). `none` is
a draw that is never answered (R196); an RNG line of the other type answers no draw of this one. -/
def drawBytes (s : State) : Option Block :=
  match s.env.rng with
  | some (.bytes v) => some v
  | some .starve => none
  | some (.indexes _) => Config.freeBytes s.env.drawn
  | none => Config.freeBytes s.env.drawn

/-- The CSRNG's answer to `draw_index(16)` (R192), as `drawBytes`. -/
def drawIndexes (s : State) : Option (Vector (Fin Config.nAlpha) 16) :=
  match s.env.rng with
  | some (.indexes v) => some v
  | some .starve => none
  | some (.bytes _) => Config.freeIndexes s.env.drawn
  | none => Config.freeIndexes s.env.drawn

/-- A SEQ step that draws has used up the answer that stood for it (R106, R191, R192). -/
def afterDraw (s : State) : State := { s with env := { s.env with rng := none, drawn := s.env.drawn + 1 } }

/-- A SEQ step that draws nothing: an answer that stood for its draw is void, for it was for this step (R106). -/
def afterNoDraw (s : State) : State := { s with env := { s.env with rng := none } }

/-! ### Reset, and the host's side -/

/-- Reset (R300): every piece of state to the value of R39. The parameter PT_MAX is not state (R21), and `env` is not the
core's. -/
def hardReset (s : State) : State := { State.resetWith s.ptMax with env := s.env }

/-- The script without the line that is now taken. -/
def withScript (ls : List Line) (s : State) : State := { s with env := { s.env with script := ls } }

/-- An RNG line: what the CSRNG will answer to the draw of the next SEQ step (R106). -/
def fixDraw (a : RngAnswer) (s : State) : State := { s with env := { s.env with rng := some a } }

/-- The state in which the next step is the SEQ step of the command whose opcode is `v`: as accept leaves it when its checks
pass (R250), and the sequencer next to step. -/
def inFlight (v : Byte) (s : State) : State :=
  withScript (.seq :: s.env.script) (latch v (clearOutput (clearFlags s)))

end Sys2Proof.Machine
end

