-- ==== Sys2Proof/Machine/Clear.lean ====
section
/-! DEFINITION. The meaning of CLEAR (R254). -/

namespace Sys2Proof.Machine

/-- The state at the end of CLEAR: KEY, KEY_VALID, ILEN and every byte of IBUF zero (R254). -/
def clearEnd (s : State) : State :=
  complete { afterNoDraw s with key := zeroBlock, keyValid := false, ilen := 0, ibuf := [] }

/-- CLEAR at its SEQ step (R254). -/
def execClear (s : State) : Host.Outcome State Fault Refusal := .next (clearEnd s)

end Sys2Proof.Machine
end

