-- ==== Sys2Proof/Machine/Aes.lean ====
section
/-! DEFINITION. The AES unit: the field GF(2^8), the steps of a round, the key expansion and the block cipher in both
directions (R120 to R132). -/

namespace Sys2Proof.Machine

/-! ### GF(2^8) -/

/-- Multiplication by `x`, modulo `x^8 + x^4 + x^3 + x + 1` (R120). -/
def xtime (a : Byte) : Byte := (a <<< 1) ^^^ (if a.getLsbD 7 then 0x1B else 0x00)

/-- `xtime^i(a)`: `xtime` applied `i` times (R120). -/
def xtimePow : Nat → Byte → Byte
  | 0, a => a
  | i + 1, a => xtime (xtimePow i a)

/-- The XOR of `xtime^i(a)` over the `i` below `n` with `b[i] = 1`. -/
def gmulBelow (a b : Byte) : Nat → Byte
  | 0 => 0
  | i + 1 => gmulBelow a b i ^^^ (if b.getLsbD i then xtimePow i a else 0)

/-- `a • b`, multiplication in GF(2^8) (R120). -/
def gmul (a b : Byte) : Byte := gmulBelow a b 8

/-! ### The byte substitutions -/

/-- The SBOX table of R123 as the spec prints it: a row of sixteen bytes for each high nibble, each row read as one number. -/
def sboxRows : List Nat :=
  [0x63_7c_77_7b_f2_6b_6f_c5_30_01_67_2b_fe_d7_ab_76,
   0xca_82_c9_7d_fa_59_47_f0_ad_d4_a2_af_9c_a4_72_c0,
   0xb7_fd_93_26_36_3f_f7_cc_34_a5_e5_f1_71_d8_31_15,
   0x04_c7_23_c3_18_96_05_9a_07_12_80_e2_eb_27_b2_75,
   0x09_83_2c_1a_1b_6e_5a_a0_52_3b_d6_b3_29_e3_2f_84,
   0x53_d1_00_ed_20_fc_b1_5b_6a_cb_be_39_4a_4c_58_cf,
   0xd0_ef_aa_fb_43_4d_33_85_45_f9_02_7f_50_3c_9f_a8,
   0x51_a3_40_8f_92_9d_38_f5_bc_b6_da_21_10_ff_f3_d2,
   0xcd_0c_13_ec_5f_97_44_17_c4_a7_7e_3d_64_5d_19_73,
   0x60_81_4f_dc_22_2a_90_88_46_ee_b8_14_de_5e_0b_db,
   0xe0_32_3a_0a_49_06_24_5c_c2_d3_ac_62_91_95_e4_79,
   0xe7_c8_37_6d_8d_d5_4e_a9_6c_56_f4_ea_65_7a_ae_08,
   0xba_78_25_2e_1c_a6_b4_c6_e8_dd_74_1f_4b_bd_8b_8a,
   0x70_3e_b5_66_48_03_f6_0e_61_35_57_b9_86_c1_1d_9e,
   0xe1_f8_98_11_69_d9_8e_94_9b_1e_87_e9_ce_55_28_df,
   0x8c_a1_89_0d_bf_e6_42_68_41_99_2d_0f_b0_54_bb_16]

/-- The INV_SBOX table of R124 as the spec prints it: a row of sixteen bytes for each high nibble, each row read as one number. -/
def invSboxRows : List Nat :=
  [0x52_09_6a_d5_30_36_a5_38_bf_40_a3_9e_81_f3_d7_fb,
   0x7c_e3_39_82_9b_2f_ff_87_34_8e_43_44_c4_de_e9_cb,
   0x54_7b_94_32_a6_c2_23_3d_ee_4c_95_0b_42_fa_c3_4e,
   0x08_2e_a1_66_28_d9_24_b2_76_5b_a2_49_6d_8b_d1_25,
   0x72_f8_f6_64_86_68_98_16_d4_a4_5c_cc_5d_65_b6_92,
   0x6c_70_48_50_fd_ed_b9_da_5e_15_46_57_a7_8d_9d_84,
   0x90_d8_ab_00_8c_bc_d3_0a_f7_e4_58_05_b8_b3_45_06,
   0xd0_2c_1e_8f_ca_3f_0f_02_c1_af_bd_03_01_13_8a_6b,
   0x3a_91_11_41_4f_67_dc_ea_97_f2_cf_ce_f0_b4_e6_73,
   0x96_ac_74_22_e7_ad_35_85_e2_f9_37_e8_1c_75_df_6e,
   0x47_f1_1a_71_1d_29_c5_89_6f_b7_62_0e_aa_18_be_1b,
   0xfc_56_3e_4b_c6_d2_79_20_9a_db_c0_fe_78_cd_5a_f4,
   0x1f_dd_a8_33_88_07_c7_31_b1_12_10_59_27_80_ec_5f,
   0x60_51_7f_a9_19_b5_4a_0d_2d_e5_7a_9f_93_c9_9c_ef,
   0xa0_e0_3b_4d_ae_2a_f5_b0_c8_eb_bb_3c_83_53_99_61,
   0x17_2b_04_7e_ba_77_d6_26_e1_69_14_63_55_21_0c_7d]

/-- The entry of a table at the row of the high nibble and the column of the low nibble of `a` (R123). -/
def tableAt (rows : List Nat) (a : Byte) : Byte := lineEntry 8 16 (rows.getD (a.toNat / 16) 0) (a.toNat % 16)

/-- `SBOX[a]` (R123). -/
def sbox (a : Byte) : Byte := tableAt sboxRows a

/-- `INV_SBOX[a]` (R124). -/
def invSbox (a : Byte) : Byte := tableAt invSboxRows a

/-- `SubBytes(s)` (R123). -/
def subBytes (s : Block) : Block := s.map sbox

/-- `InvSubBytes(s)` (R124). -/
def invSubBytes (s : Block) : Block := s.map invSbox

/-! ### The row shifts -/

/-- `ShiftRows(s)`: row `r` rotated left by `r` columns (R125). -/
def shiftRows (s : Block) : Block where
  c0 := ⟨s.c0.r0, s.c1.r1, s.c2.r2, s.c3.r3⟩
  c1 := ⟨s.c1.r0, s.c2.r1, s.c3.r2, s.c0.r3⟩
  c2 := ⟨s.c2.r0, s.c3.r1, s.c0.r2, s.c1.r3⟩
  c3 := ⟨s.c3.r0, s.c0.r1, s.c1.r2, s.c2.r3⟩

/-- `InvShiftRows(s)`: row `r` rotated right by `r` columns (R126). -/
def invShiftRows (s : Block) : Block where
  c0 := ⟨s.c0.r0, s.c3.r1, s.c2.r2, s.c1.r3⟩
  c1 := ⟨s.c1.r0, s.c0.r1, s.c3.r2, s.c2.r3⟩
  c2 := ⟨s.c2.r0, s.c1.r1, s.c0.r2, s.c3.r3⟩
  c3 := ⟨s.c3.r0, s.c2.r1, s.c1.r2, s.c0.r3⟩

/-! ### The column mixes -/

/-- One column of MixColumns, with `0x02 • a = xtime(a)` and `0x03 • a = xtime(a) XOR a` (R128). -/
def mixColumn (c : Column) : Column where
  r0 := xtime c.r0 ^^^ (xtime c.r1 ^^^ c.r1) ^^^ c.r2 ^^^ c.r3
  r1 := c.r0 ^^^ xtime c.r1 ^^^ (xtime c.r2 ^^^ c.r2) ^^^ c.r3
  r2 := c.r0 ^^^ c.r1 ^^^ xtime c.r2 ^^^ (xtime c.r3 ^^^ c.r3)
  r3 := (xtime c.r0 ^^^ c.r0) ^^^ c.r1 ^^^ c.r2 ^^^ xtime c.r3

/-- `MixColumns(s)` (R128). -/
def mixColumns (s : Block) : Block := ⟨mixColumn s.c0, mixColumn s.c1, mixColumn s.c2, mixColumn s.c3⟩

/-- One column of InvMixColumns (R129). -/
def invMixColumn (c : Column) : Column where
  r0 := gmul c.r0 0x0e ^^^ gmul c.r1 0x0b ^^^ gmul c.r2 0x0d ^^^ gmul c.r3 0x09
  r1 := gmul c.r0 0x09 ^^^ gmul c.r1 0x0e ^^^ gmul c.r2 0x0b ^^^ gmul c.r3 0x0d
  r2 := gmul c.r0 0x0d ^^^ gmul c.r1 0x09 ^^^ gmul c.r2 0x0e ^^^ gmul c.r3 0x0b
  r3 := gmul c.r0 0x0b ^^^ gmul c.r1 0x0d ^^^ gmul c.r2 0x09 ^^^ gmul c.r3 0x0e

/-- `InvMixColumns(s)` (R129). -/
def invMixColumns (s : Block) : Block := ⟨invMixColumn s.c0, invMixColumn s.c1, invMixColumn s.c2, invMixColumn s.c3⟩

/-! ### The key expansion -/

/-- `RotWord([b0, b1, b2, b3]) = [b1, b2, b3, b0]` (R127). -/
def rotWord (w : Column) : Column := ⟨w.r1, w.r2, w.r3, w.r0⟩

/-- `SubWord`: SBOX on each of the four bytes (R127). -/
def subWord (w : Column) : Column := w.map sbox

/-- `RC[j]`, `RC[1] = 0x01`, `RC[j+1] = xtime(RC[j])` (R127). -/
def roundConstant (j : Nat) : Byte := xtimePow (j - 1) 0x01

/-- `w[i]` from the words before it, for `i` = their number, `i >= 4` (R127). -/
def nextKeyWord (w : List Column) : Column :=
  let i := w.length
  let t := w.getD (i - 1) default
  let t' := if i % 4 = 0 then (subWord (rotWord t)).xor ⟨roundConstant (i / 4), 0, 0, 0⟩ else t
  (w.getD (i - 4) default).xor t'

/-- `n` more words appended to an expanded key. -/
def expandKey (w : List Column) : Nat → List Column
  | 0 => w
  | n + 1 => expandKey (w ++ [nextKeyWord w]) n

/-- `KeyExpansion(K)`: the 44 words `w[0..43]` (R127). -/
def keyExpansion (k : Block) : List Column := expandKey [k.c0, k.c1, k.c2, k.c3] 40

/-- `RK(n)`: round key `n`, the words `w[4n .. 4n+3]` (R127, R130). -/
def roundKey (w : List Column) (n : Nat) : Block :=
  ⟨w.getD (4 * n) default, w.getD (4 * n + 1) default, w.getD (4 * n + 2) default, w.getD (4 * n + 3) default⟩

/-- `AddRoundKey(s, n)` (R130). -/
def addRoundKey (w : List Column) (n : Nat) (s : Block) : Block := s.xor (roundKey w n)

/-! ### The block cipher -/

/-- Rounds 1 to `n` of the cipher (R131). -/
def encRounds (w : List Column) : Nat → Block → Block
  | 0, s => s
  | n + 1, s => addRoundKey w (n + 1) (mixColumns (shiftRows (subBytes (encRounds w n s))))

/-- The cipher on an expanded key: round key 0, nine whole rounds, the last without MixColumns (R131). -/
def encBlockWith (w : List Column) (b : Block) : Block :=
  addRoundKey w 10 (shiftRows (subBytes (encRounds w 9 (addRoundKey w 0 b))))

/-- `AesEncBlock(K, B)` (R131). -/
def aesEncBlock (k b : Block) : Block := encBlockWith (keyExpansion k) b

/-- Rounds `n` down to 1 of the inverse cipher (R132). -/
def decRounds (w : List Column) : Nat → Block → Block
  | 0, s => s
  | n + 1, s => decRounds w n (invMixColumns (addRoundKey w (n + 1) (invSubBytes (invShiftRows s))))

/-- The inverse cipher on an expanded key, the round keys used from 10 down to 0 (R132). -/
def decBlockWith (w : List Column) (b : Block) : Block :=
  addRoundKey w 0 (invSubBytes (invShiftRows (decRounds w 9 (addRoundKey w 10 b))))

/-- `AesDecBlock(K, B)` (R132). -/
def aesDecBlock (k b : Block) : Block := decBlockWith (keyExpansion k) b

end Sys2Proof.Machine
end

