-- ==== Sys2Proof/Machine/Cbc.lean ====
section
/-! DEFINITION. Cipher-block chaining in both directions and the block padding (R140 to R145). -/

namespace Sys2Proof.Machine

/-- CBC encryption of the blocks of a message, `chain` standing for the ciphertext block before the first (R141). -/
def cbcEncBlocks (k : Block) : Block → List Block → List Block
  | _, [] => []
  | chain, m :: ms =>
    let c := aesEncBlock k (m.xor chain)
    c :: cbcEncBlocks k c ms

/-- `CbcEncrypt(K, IV, M)` (R141). -/
def cbcEncrypt (k iv : Block) (m : List Byte) : List Byte := ofBlocks (cbcEncBlocks k iv (toBlocks m))

/-- CBC decryption of the blocks of a ciphertext, `chain` standing for the ciphertext block before the first (R142). -/
def cbcDecBlocks (k : Block) : Block → List Block → List Block
  | _, [] => []
  | chain, c :: cs => (aesDecBlock k c).xor chain :: cbcDecBlocks k c cs

/-- `CbcDecrypt(K, IV, C)` (R142). -/
def cbcDecrypt (k iv : Block) (c : List Byte) : List Byte := ofBlocks (cbcDecBlocks k iv (toBlocks c))

/-- `n = 16 - (L mod 16)`, the number of pad bytes of a plaintext of `L` bytes: 1 to 16 (R103, R144). -/
def padLength (l : Nat) : Nat := 16 - l % 16

/-- `Pad(P)`: `n` bytes of value `n` appended (R144). -/
def pad (p : List Byte) : List Byte := p ++ List.replicate (padLength p.length) (BitVec.ofNat 8 (padLength p.length))

/-- `Unpad(M)`, `none` standing for `invalid` (R145): the last byte `p` is 1 to 16 and the last `p` bytes all equal it. -/
def unpad (m : List Byte) : Option (List Byte) :=
  let p := m.getLastD 0
  if p.toNat < 1 ∨ 16 < p.toNat then none
  else if (m.drop (m.length - p.toNat)).any (fun b => b != p) then none
  else some (m.take (m.length - p.toNat))

end Sys2Proof.Machine
end

