-- ==== Sys2Proof/Machine/Sha256.lean ====
section
/-! DEFINITION. The SHA unit: word functions, constants, padding, schedule, compression, hash (R160 to R170). -/

namespace Sys2Proof.Machine

/-- `ROTR(x, n)`: the word rotated right by `n`, `0 < n < 32` (R160). -/
def rotr (x : Word) (n : Nat) : Word := (x >>> n) ||| (x <<< (32 - n))

/-- The XOR of the rotations of a word right by each of these amounts: what the four sigma functions share (R161). -/
def xorRotr (x : Word) : List Nat → Word
  | [] => 0
  | n :: ns => rotr x n ^^^ xorRotr x ns

/-- `BSIG1` (R161), of `T1`. -/
def bsig1 (x : Word) : Word := xorRotr x [6, 11, 25]

/-- `Ch(x, y, z)` (R161), of `T1`. -/
def ch (x y z : Word) : Word := (x &&& y) ^^^ (~~~x &&& z)

/-- `BSIG0` (R161), of `T2`. -/
def bsig0 (x : Word) : Word := xorRotr x [2, 13, 22]

/-- `Maj(x, y, z)` (R161), of `T2`. -/
def maj (x y z : Word) : Word := (x &&& y) ^^^ (x &&& z) ^^^ (y &&& z)

/-- `SSIG0` (R161), of the message schedule; `SHR` shifts zeros in (R160). -/
def ssig0 (x : Word) : Word := xorRotr x [7, 18] ^^^ (x >>> 3)

/-- `SSIG1` (R161), of the message schedule. -/
def ssig1 (x : Word) : Word := xorRotr x [17, 19] ^^^ (x >>> 10)

/-- The table of R162 as the spec prints it: eight lines of eight 32-bit constants, each line read as one number. -/
def shaKLines : List Nat :=
  [0x428a2f98_71374491_b5c0fbcf_e9b5dba5_3956c25b_59f111f1_923f82a4_ab1c5ed5,
   0xd807aa98_12835b01_243185be_550c7dc3_72be5d74_80deb1fe_9bdc06a7_c19bf174,
   0xe49b69c1_efbe4786_0fc19dc6_240ca1cc_2de92c6f_4a7484aa_5cb0a9dc_76f988da,
   0x983e5152_a831c66d_b00327c8_bf597fc7_c6e00bf3_d5a79147_06ca6351_14292967,
   0x27b70a85_2e1b2138_4d2c6dfc_53380d13_650a7354_766a0abb_81c2c92e_92722c85,
   0xa2bfe8a1_a81a664b_c24b8b70_c76c51a3_d192e819_d6990624_f40e3585_106aa070,
   0x19a4c116_1e376c08_2748774c_34b0bcb5_391c0cb3_4ed8aa4a_5b9cca4f_682e6ff3,
   0x748f82ee_78a5636f_84c87814_8cc70208_90befffa_a4506ceb_bef9a3f7_c67178f2]

/-- The 64 round constants `K[0..63]`, in order (R162). -/
def shaK : List Word := shaKLines.flatMap fun line => (List.range 8).map (lineEntry 32 8 line)

/-- `ShaInit`: the initial hash value (R163). -/
def shaInit : HashState where
  a := 0x6a09e667
  b := 0xbb67ae85
  c := 0x3c6ef372
  d := 0xa54ff53a
  e := 0x510e527f
  f := 0x9b05688c
  g := 0x1f83d9ab
  h := 0x5be0cd19

/-- `k = (55 - L) mod 64`, the number of zero bytes of the padding (R165). -/
def shaZeros (l : Nat) : Nat := (55 + (64 - l % 64)) % 64

/-- `ShaPad(M)` (R165). -/
def shaPad (m : List Byte) : List Byte := m ++ [0x80] ++ List.replicate (shaZeros m.length) 0x00 ++ be64 (8 * m.length)

/-- `word(B, t)` (R166). -/
def blockWord (b : List Byte) (t : Nat) : Word :=
  wordOfBytes (b.getD (4 * t) 0) (b.getD (4 * t + 1) 0) (b.getD (4 * t + 2) 0) (b.getD (4 * t + 3) 0)

/-- `W[t]` from the words before it, for `t` = their number, `t >= 16` (R167). -/
def nextScheduleWord (w : List Word) : Word :=
  let t := w.length
  ssig1 (w.getD (t - 2) 0) + w.getD (t - 7) 0 + ssig0 (w.getD (t - 15) 0) + w.getD (t - 16) 0

/-- `n` more words appended to a message schedule. -/
def extendSchedule (w : List Word) : Nat → List Word
  | 0 => w
  | n + 1 => extendSchedule (w ++ [nextScheduleWord w]) n

/-- `ShaSchedule(B)`: the 64 words `W[0..63]` (R167). -/
def shaSchedule (b : List Byte) : List Word := extendSchedule ((List.range 16).map (blockWord b)) 48

/-- One round: the eight assignments use the values from before the round; `kw` is the pair `(K[t], W[t])` (R168). -/
def shaRound (v : HashState) (kw : Word × Word) : HashState :=
  let t1 := v.h + bsig1 v.e + ch v.e v.f v.g + kw.1 + kw.2
  let t2 := bsig0 v.a + maj v.a v.b v.c
  ⟨t1 + t2, v.a, v.b, v.c, v.d + t1, v.e, v.f, v.g⟩

/-- Word-wise addition of two hash values (R168). -/
def hashAdd (x y : HashState) : HashState :=
  ⟨x.a + y.a, x.b + y.b, x.c + y.c, x.d + y.d, x.e + y.e, x.f + y.f, x.g + y.g, x.h + y.h⟩

/-- `ShaCompress(H, B)` (R168). -/
def shaCompress (h : HashState) (b : List Byte) : HashState :=
  hashAdd h ((List.zip shaK (shaSchedule b)).foldl shaRound h)

/-- The 64-byte blocks `B_i` of a padded message (R166). -/
def shaBlocks (m : List Byte) : List (List Byte) := (List.range (m.length / 64)).map fun i => (m.drop (64 * i)).take 64

/-- The hash value after all blocks of a message in the domain (R169). -/
def shaHash (m : List Byte) : HashState := (shaBlocks (shaPad m)).foldl shaCompress shaInit

/-- `DigestBytes(H)`: 32 bytes, `H[0]` first, each word most significant byte first (R170). -/
def digestBytes (h : HashState) : List Byte :=
  wordToBytes h.a ++ wordToBytes h.b ++ wordToBytes h.c ++ wordToBytes h.d ++ wordToBytes h.e ++ wordToBytes h.f ++
    wordToBytes h.g ++ wordToBytes h.h

/-- `Sha256(M)` (R169). Outside its domain of at most `2^61 - 1` bytes (R164) the hash is a free value (log entry 3). -/
def sha256 (m : List Byte) : List Byte :=
  if m.length ≤ 2 ^ 61 - 1 then digestBytes (shaHash m) else digestBytes (Config.shaOutOfDomain m)

end Sys2Proof.Machine
end

