-- ==== Sys2Proof/Machine/Hex.lean ====
section
/-! DEFINITION. The hex encoder, the hex check and the integrity tag (R100, R104, R171 to R173). -/

namespace Sys2Proof.Machine

/-- The row of codes of R104, the ASCII codes of `0` to `9` and `a` to `f`, read as one number. -/
def hexDigits : Nat := 0x30_31_32_33_34_35_36_37_38_39_61_62_63_64_65_66

/-- `HEXDIGIT[v]`, for `v` below 16 (R104). -/
def hexDigit (v : Nat) : Byte := lineEntry 8 16 hexDigits v

/-- The two characters of a byte, the high nibble first (R171). -/
def hexByte (b : Byte) : List Byte := [hexDigit (b.toNat / 16), hexDigit (b.toNat % 16)]

/-- `HexEncode(D)` (R171). -/
def hexEncode (d : List Byte) : List Byte := d.flatMap hexByte

/-- `Digest64(P) = HexEncode(Sha256(P))`: the integrity tag (R172). -/
def digest64 (p : List Byte) : List Byte := hexEncode (sha256 p)

/-- One of the 22 codes DECRYPT takes for a hex character: `0` to `9`, `a` to `f`, `A` to `F` (R100). -/
def isHexChar (b : Byte) : Bool :=
  (0x30#8 ≤ b && b ≤ 0x39#8) || (0x61#8 ≤ b && b ≤ 0x66#8) || (0x41#8 ≤ b && b ≤ 0x46#8)

/-- `IsHex64(T)` on a 64-byte string: every byte is a hex character (R173). -/
def isHex64 (t : List Byte) : Bool := t.all isHexChar

end Sys2Proof.Machine
end

