-- ==== Sys2Proof/Machine/Framer.lean ====
section
/-! DEFINITION. The blob framer: serializer and deserializer, and ENCRYPT and DECRYPT as functions of their operands and
the draw (R95, R101, R211, R214, R232, R244). -/

namespace Sys2Proof.Machine

/-- `Serialize(iv, C, tag) = iv || C || tag` (R211). -/
def serialize (iv : Block) (c tag : List Byte) : List Byte := iv.toBytes ++ c ++ tag

/-- `Encrypt(K, P, iv) = iv || CbcEncrypt(K, iv, Pad(P)) || Digest64(P)` (R214). -/
def encryptBlob (k : Block) (p : List Byte) (iv : Block) : List Byte :=
  serialize iv (cbcEncrypt k iv (pad p)) (digest64 p)

/-- `B[0 .. 16)`: the IV field of a blob of at least 80 bytes (R101, R232). -/
def blobIv (b : List Byte) : Block := Block.ofBytes (slice b 0 16)

/-- `B[16 .. len(B)-64)`: the ciphertext field of a blob of at least 80 bytes (R101, R232). -/
def blobCiphertext (b : List Byte) : List Byte := slice b 16 (b.length - 64)

/-- `B[len(B)-64 .. len(B))`: the digest field of a blob of at least 80 bytes (R101, R232). -/
def blobTag (b : List Byte) : List Byte := slice b (b.length - 64) b.length

/-- `Decrypt(K, B)`: the steps of DECRYPT in strict order, the first that fails giving the failure (R230 to R238, R244). -/
def decryptBlob (k : Block) (b : List Byte) : Except Failure (List Byte) :=
  if b.length < Config.minBlob then .error .malformedBlob
  else if !isHex64 (blobTag b) then .error .malformedBlob
  else if (blobCiphertext b).length = 0 ∨ (blobCiphertext b).length % 16 ≠ 0 then .error .malformedBlob
  else
    match unpad (cbcDecrypt k (blobIv b) (blobCiphertext b)) with
    | none => .error .decryptionFailed
    | some p => if digest64 p ≠ blobTag b then .error .integrityMismatch else .ok p

end Sys2Proof.Machine
end

