-- ==== Sys2Proof/Machine/Decrypt.lean ====
section
/-! DEFINITION. The meaning of DECRYPT (R230). -/

namespace Sys2Proof.Machine

/-- The state at the end of DECRYPT: the plaintext of the blob `B = MemRead(IBUF, 0, ILEN)` in OBUF, or the failure of the
first step that fails (R230, R237, R266). -/
def decryptEnd (s : State) : State :=
  match decryptBlob s.key (memRead s.ibuf 0 s.ilen) with
  | .ok p => complete { afterNoDraw s with obuf := memWrite s.obuf 0 p, olen := p.length }
  | .error e => raise e (afterNoDraw s)

/-- DECRYPT at its SEQ step (R230). -/
def execDecrypt (s : State) : Host.Outcome State Fault Refusal := .next (decryptEnd s)

end Sys2Proof.Machine
end

