-- ==== Sys2Proof/Machine/Encrypt.lean ====
section
/-! DEFINITION. The meaning of ENCRYPT (R210). -/

namespace Sys2Proof.Machine

/-- The state at the end of ENCRYPT: the blob of `P = MemRead(IBUF, 0, ILEN)` in OBUF, or the fatal stop when the draw of the
IV is never answered (R194, R196, R210). -/
def encryptEnd (s : State) : State :=
  match drawBytes s with
  | some iv =>
    let blob := encryptBlob s.key (memRead s.ibuf 0 s.ilen) iv
    complete { afterDraw s with obuf := memWrite s.obuf 0 blob, olen := blob.length }
  | none => raise .entropyFatal (afterDraw s)

/-- ENCRYPT at its SEQ step (R210). -/
def execEncrypt (s : State) : Host.Outcome State Fault Refusal := .next (encryptEnd s)

end Sys2Proof.Machine
end

