-- ==== Sys2Proof/Machine/Genkey.lean ====
section
/-! DEFINITION. The meaning of GENKEY (R195) and the key alphabet (R102). -/

namespace Sys2Proof.Machine

/-- `CHARSET[k]`: the alphabet in the order a to z, A to Z, 0 to 9 (R102). -/
def charset (k : Fin Config.nAlpha) : Byte :=
  if k.val < 26 then BitVec.ofNat 8 (0x61 + k.val)
  else if k.val < 52 then BitVec.ofNat 8 (0x41 + (k.val - 26))
  else BitVec.ofNat 8 (0x30 + (k.val - 52))

/-- `KEY[j] <- CHARSET[idx[j]]` for `j` in 0 to 15 (R195). -/
def keyOfIndexes (idx : Vector (Fin Config.nAlpha) 16) : Block := Block.ofFn fun j => charset idx[j]

/-- The state at the end of GENKEY: the drawn key, or the fatal stop when the draw is never answered (R195, R196; log
entry 11). -/
def genkeyEnd (s : State) : State :=
  match drawIndexes s with
  | some idx => complete { afterDraw s with key := keyOfIndexes idx, keyValid := true }
  | none => raise .entropyFatal (afterDraw s)

/-- GENKEY at its SEQ step (R195). -/
def execGenkey (s : State) : Host.Outcome State Fault Refusal := .next (genkeyEnd s)

end Sys2Proof.Machine
end

