-- ==== Sys2Proof/Machine/Dispatch.lean ====
section
/-! DEFINITION. The dispatch of the SEQ step: one arm per command (R252). -/

namespace Sys2Proof.Machine

/-- The command `i` carried out from start to end by the SEQ step (R252). -/
def exec (i : Instr) (s : State) : Host.Outcome State Fault Refusal :=
  match i with
  | .genkey => Sys2Proof.Machine.execGenkey s
  | .encrypt => Sys2Proof.Machine.execEncrypt s
  | .decrypt => Sys2Proof.Machine.execDecrypt s
  | .clear => Sys2Proof.Machine.execClear s

end Sys2Proof.Machine
end

