-- ==== Sys2Proof/Machine/Sequencer.lean ====
section
/-! DEFINITION. The SEQ step, and what each line of a script does (R106, R252, R256). -/

namespace Sys2Proof.Machine

/-- The SEQ step: the command whose opcode stands in CMDL, carried out from start to end (R252). -/
def seqStep (s : State) : Host.Outcome State Fault Refusal :=
  match decode [s.cmdl] with
  | .ok (i, _) => exec i s
  | .error _ => .fault .illegalLatch

/-- What a line of the script does to a state whose script already stands behind that line (R60, R106, R190, R252, R300). SEQ while
no command is in flight is refused: no run of the core holds it (R252). -/
def takeLine (l : Line) (s : State) : Host.Outcome State Fault Refusal :=
  match l with
  | .csrWrite n v => .next (csrWrite n v s)
  | .csrRead n => .next (reply (csrReadValue n s) s)
  | .ibufWrite i b => .next (ibufWrite i b s)
  | .obufRead i => .next (reply (.byte (obufReadValue i s)) s)
  | .seq => if s.phase = .busy then seqStep s else .refused .sequencerNotEnabled
  | .rng a => .next (fixDraw a s)
  | .reset => .next (hardReset s)

/-- The next line of the script taken; one whose value has not its register's width crosses the interface in no transaction
(R60) and is refused (log entry 4). -/
def runLine (l : Line) (s : State) : Host.Outcome State Fault Refusal :=
  if l.wellFormed s.ptMax then takeLine l s else .refused .malformedTransaction

/-- The step when the script holds no further line. BUSY: only the sequencer can step, and it does (R253). IDLE: the run is over
and the state is its result (R316). FATAL: no step but reset is enabled, a fault state (R316; log entry 6). -/
def runUnscripted (s : State) : Host.Outcome State Fault Refusal :=
  match s.phase with
  | .busy => seqStep s
  | .idle => .next s
  | .fatal => .fault .entropyFatal

end Sys2Proof.Machine
end

