-- ==== Sys2Proof/Machine/Step.lean ====
section
/-! DEFINITION. One step of the machine: one line of the script, or the sequencer alone; and the placing of a command where the
next step takes it. -/

namespace Sys2Proof.Machine

/-- One step. Steps of all agents form one total order (R75), which is the order of the script's lines. -/
def step (s : State) : Host.Outcome State Fault Refusal :=
  match s.env.script with
  | [] => runUnscripted s
  | l :: ls => runLine l (withScript ls s)

/-- The core has no program counter and fetches nothing (R25): its command stands in CMDL while PHASE is BUSY (R33, R252), so the
command `w` is placed there as accept places it, with the SEQ step next (log entry 5). -/
def State.withFetchWord (s : State) (nbits w : Nat) : State := inFlight (BitVec.ofNat 8 (w % 2 ^ nbits)) s

end Sys2Proof.Machine
end

