-- ==== Sys2Proof/Safety.lean ====
section
/-! DEFINITION. The words the claims use: the operand and the result of a command as byte strings, what changes nothing of the
core, which agent steps next, the invariant of every reachable state, and what a host cannot tell apart. -/

namespace Sys2Proof.Machine

/-- `IBUF[0..ILEN)`: the plaintext of ENCRYPT, the blob of DECRYPT (R30). -/
def inputBytes (s : State) : List Byte := memRead s.ibuf 0 s.ilen

/-- `OBUF[0..OLEN)`: the architectural content of OBUF (R31). -/
def outputBytes (s : State) : List Byte := memRead s.obuf 0 s.olen

/-- `t` is `s` in every piece of state of the core; only the model's own `env` may differ. -/
abbrev SameCore (s t : State) : Prop := t = { s with env := t.env }

/-- The operands of a command and the parameter: KEY, KEY_VALID, ILEN and every byte of IBUF are in `t` what they are in `s`. -/
def SameOperands (s t : State) : Prop :=
  t.ptMax = s.ptMax ∧ t.key = s.key ∧ t.keyValid = s.keyValid ∧ t.ilen = s.ilen ∧
    ∀ a, Memory.read t.ibuf a = Memory.read s.ibuf a

/-- The line of the script that the next step takes, if there is one. -/
def nextLine (s : State) : Option Line := s.env.script.head?

/-- The next step is the SEQ step (R252): a command is in flight, and the script says SEQ, or says nothing more (log entry 6). -/
def SeqNext (s : State) : Prop := s.phase = .busy ∧ (nextLine s = some .seq ∨ nextLine s = none)

/-- The command in flight draws, and its draw is never answered (R196). -/
def Starves (s : State) : Prop := s.cmdl = 0x01 ∧ drawIndexes s = none ∨ s.cmdl = 0x02 ∧ drawBytes s = none

/-- The next line of the script, if there is one, belongs to a run of the core: its value has its register's width (R60), and
SEQ stands only where a command is in flight (R252). -/
def LegalNext (s : State) : Prop :=
  ∀ l, nextLine s = some l → l.wellFormed s.ptMax = true ∧ (l = .seq → s.phase = .busy)

/-- The values ERR can hold (R29, R260). -/
def legalErr : List Byte := [0x00, 0x01, 0x02, 0x03, 0x10, 0x11, 0x12, 0xFF]

/-- What holds in every reachable state: the six points of R28, the widths of R29, the canonical form of the buffers, and where
CMDL and the working registers are zero (R37). -/
structure Inv (s : State) : Prop where
  /-- ILEN fits its `LEN_W` bits (R29). -/
  ilen_fits : s.ilen < 2 ^ lenW s.ptMax
  /-- "`OLEN <= BUF_CAP`" (R28). -/
  olen_fits : s.olen ≤ bufCap s.ptMax
  /-- IBUF is in canonical form. -/
  ibuf_wf : Memory.wf s.ibuf = true
  /-- IBUF lists nothing at or above BUF_CAP (R63). -/
  ibuf_below : Memory.below (bufCap s.ptMax) s.ibuf = true
  /-- OBUF is in canonical form. -/
  obuf_wf : Memory.wf s.obuf = true
  /-- OBUF lists nothing at or above OLEN (R31). -/
  obuf_below : Memory.below s.olen s.obuf = true
  /-- "`DONE = 1` implies `ERROR = 0`, and the reverse" (R28). -/
  not_both : ¬(s.done = true ∧ s.error = true)
  /-- "`ERROR = 1` if and only if `ERR != 0x00`" (R28). -/
  error_iff : s.error = true ↔ s.err ≠ 0x00
  /-- ERR holds a code of R260 and nothing else. -/
  err_legal : s.err ∈ legalErr
  /-- "`ERROR = 1` implies `OLEN = 0`" (R28). -/
  error_olen : s.error = true → s.olen = 0
  /-- "`PHASE = BUSY` implies `DONE = 0`, `ERROR = 0`, `ERR = 0x00`, `OLEN = 0`" (R28). -/
  busy_clear : s.phase = .busy → s.done = false ∧ s.error = false ∧ s.err = 0x00 ∧ s.olen = 0
  /-- The command in flight still passes the checks it passed at accept: its opcode and operands are locked (R33). -/
  busy_checked : s.phase = .busy → check s.cmdl s = none
  /-- "`PHASE = FATAL` implies `ERROR = 1`, `ERR = 0xFF`, `OLEN = 0`" (R28). -/
  fatal_mark : s.phase = .fatal → s.error = true ∧ s.err = 0xFF ∧ s.olen = 0
  /-- ERR is 0xFF in FATAL only (R260). -/
  fatal_only : s.err = 0xFF → s.phase = .fatal
  /-- CMDL is zero when no command is in flight (R37). -/
  cmdl_zero : s.phase ≠ .busy → s.cmdl = 0x00
  /-- The working registers are zero between the steps (R37, R252). -/
  work_zero : s.work = zeroWork
  /-- KEY is zero while no key has been loaded since reset or CLEAR (R24, R39, R254). -/
  no_key_zero : s.keyValid = false → s.key = zeroBlock

/-- What no sequence of transactions and draws can tell apart (R317): the two states agree on PHASE, DONE, ERROR, KEY_VALID,
ERR, ILEN, OLEN, KEY, `OBUF[0 .. OLEN)` and all of IBUF, and on PT_MAX and the agents' future; their buffers are in
canonical form. R317 does not name CMDL; while a command is in flight it decides what the SEQ step does, so there the two
agree on it too (log entry 9). -/
structure Indistinguishable (s t : State) : Prop where
  ptMax : s.ptMax = t.ptMax
  phase : s.phase = t.phase
  done : s.done = t.done
  error : s.error = t.error
  keyValid : s.keyValid = t.keyValid
  err : s.err = t.err
  ilen : s.ilen = t.ilen
  olen : s.olen = t.olen
  key : s.key = t.key
  output : ∀ a, a < s.olen → Memory.read s.obuf a = Memory.read t.obuf a
  input : ∀ a, Memory.read s.ibuf a = Memory.read t.ibuf a
  env : s.env = t.env
  latch : s.phase = .busy → s.cmdl = t.cmdl
  wf : Memory.wf s.ibuf = true ∧ Memory.wf t.ibuf = true ∧ Memory.wf s.obuf = true ∧ Memory.wf t.obuf = true

/-- Two outcomes correspond: next states related by `R`, or a stop for the same reason. -/
def OutcomesRelated (R : State → State → Prop) :
    Host.Outcome State Fault Refusal → Host.Outcome State Fault Refusal → Prop
  | .next s, .next t => R s t
  | .fault f, .fault g => f = g
  | .refused r, .refused q => r = q
  | .next _, .fault _ => False
  | .next _, .refused _ => False
  | .fault _, .next _ => False
  | .fault _, .refused _ => False
  | .refused _, .next _ => False
  | .refused _, .fault _ => False

/-- A command ended by the failure of code `c`: PHASE IDLE, ERROR 1, ERR the code, OLEN 0 (R266). -/
def EndedWithFailure (c : Byte) (t : State) : Prop :=
  t.phase = .idle ∧ t.error = true ∧ t.err = c ∧ t.olen = 0

/-- `rotl8(b, n)`: the byte rotated left by `n` (R123). -/
def rotl8 (b : Byte) (n : Nat) : Byte := (b <<< n) ||| (b >>> (8 - n))

/-- A letter or a digit: ASCII 0x61 to 0x7A, 0x41 to 0x5A, 0x30 to 0x39 (R102). -/
def isKeyChar (b : Byte) : Bool :=
  (0x61#8 ≤ b && b ≤ 0x7A#8) || (0x41#8 ≤ b && b ≤ 0x5A#8) || (0x30#8 ≤ b && b ≤ 0x39#8)

/-- A lowercase hex character: ASCII 0x30 to 0x39, 0x61 to 0x66 (R98). -/
def isLowerHex (b : Byte) : Bool := (0x30#8 ≤ b && b ≤ 0x39#8) || (0x61#8 ≤ b && b ≤ 0x66#8)

/-- The primes below `n`, in order (R162, R163). -/
def primesBelow (n : Nat) : List Nat :=
  (List.range n).filter fun p => decide (2 ≤ p) && (List.range p).all fun d => decide (d < 2) || p % d != 0

/-- The number whose big-endian bytes are `l`. -/
def bigEndian (l : List Byte) : Nat := l.foldl (fun n b => n * 256 + b.toNat) 0

end Sys2Proof.Machine
end

