-- ==== Sys2Proof/Certificates/Slice0/Obligations.lean ====
section
/-! DEFINITION. The statements for the provers, from the numbered rules of the spec. Each docstring names the rule. A
statement over all states takes the canonical form of a buffer as a premise where a byte is stored into that buffer; that
form is part of `Inv`, which `StepKeepsInvariant` says every step keeps. -/

open Sys2Proof Sys2Proof.Machine

/-! ### Encoding, dispatch and the step -/

/-- R91: the opcode map, a value selecting the row with `(v AND mask) = match`. -/
def Obligations.OpcodeMapSelectsRows : Prop :=
  decode [0x01] = .ok (.genkey, []) ∧ decode [0x02] = .ok (.encrypt, []) ∧
  decode [0x03] = .ok (.decrypt, []) ∧ decode [0x04] = .ok (.clear, []) ∧
  ∀ v : Byte,
    (v &&& 0xFF = 0x01 → decodeByte v = .ok .genkey) ∧ (v &&& 0xFF = 0x02 → decodeByte v = .ok .encrypt) ∧
    (v &&& 0xFF = 0x03 → decodeByte v = .ok .decrypt) ∧ (v &&& 0xFF = 0x04 → decodeByte v = .ok .clear)

/-- R90, R91, R93: decoder and encoder agree both ways, so no byte but the four opcodes decodes, and none is dropped. -/
def Obligations.DecodeAndEncodeAgree : Prop :=
  ∀ (bs rest : List Byte) (i : Instr), decode bs = .ok (i, rest) ↔ bs = encode i ++ rest

/-- R252: while BUSY, the step of the sequencer is `exec` of the command that CMDL decodes to, where the script says SEQ (only that
line is taken from it). That it is so also where the script says nothing more is the model's choice (log entry 6). -/
def Obligations.StepRunsDecodedCommand : Prop :=
  ∀ (s : State) (i : Instr) (rest : List Byte), s.phase = .busy → decode [s.cmdl] = .ok (i, rest) →
    (∀ ls, s.env.script = .seq :: ls → step s = exec i (withScript ls s)) ∧
    (s.env.script = [] → step s = exec i s)

/-- The placing of a command (log entry 5, the model's choice): the next step runs the command whose opcode is placed, in the
state that accept leaves. -/
def Obligations.PlacedCommandRunsNext : Prop :=
  ∀ (s : State) (i : Instr),
    step (s.withFetchWord 8 i.opcode.toNat) = exec i (latch i.opcode (clearOutput (clearFlags s)))

/-- Where a step is a next state: in every state of the invariant, unless the core is FATAL with no line to come, or the next
line belongs to no run (R60, R252; log entries 4 and 6). That the SEQ step answers also where its draw is never answered, to FATAL,
where R196 lets a model give it no step, is the model's choice (log entry 11). -/
def Obligations.StepAnswersOnLegalScripts : Prop :=
  ∀ s : State, Inv s → LegalNext s → ¬(s.phase = .fatal ∧ nextLine s = none) → ∃ t, step s = .next t

/-! ### Accept -/

/-- R250, R251 (and R93, R266 for the protocol errors): a write of any `v` to CMD in IDLE clears the last result, then the
checks apply in their order; a protocol error ends the command at once, else CMDL holds `v` and PHASE is BUSY. -/
def Obligations.AcceptAppliesChecksInOrder : Prop :=
  ∀ (s : State) (v : Byte) (ls : List Line), s.phase = .idle → s.env.script = .csrWrite 0x00 (.byte v) :: ls →
    ∃ t, step s = .next t ∧ t.done = false ∧ t.olen = 0 ∧ (∀ a, Memory.read t.obuf a = 0x00) ∧
      SameOperands s t ∧ t.env = { s.env with script := ls } ∧
      (if v ≠ 0x01 ∧ v ≠ 0x02 ∧ v ≠ 0x03 ∧ v ≠ 0x04 then
        EndedWithFailure 0x10 t ∧ t.cmdl = 0x00 ∧ t.work = zeroWork
      else if (v = 0x02 ∨ v = 0x03) ∧ s.keyValid = false then
        EndedWithFailure 0x11 t ∧ t.cmdl = 0x00 ∧ t.work = zeroWork
      else if (v = 0x02 ∧ s.ptMax.val < s.ilen) ∨
          (v = 0x03 ∧ 80 + 16 * (s.ptMax.val / 16 + 1) < s.ilen) then
        EndedWithFailure 0x12 t ∧ t.cmdl = 0x00 ∧ t.work = zeroWork
      else t.phase = .busy ∧ t.cmdl = v ∧ t.error = false ∧ t.err = 0x00 ∧ t.work = s.work)

/-! ### The host's transactions -/

/-- R65: while BUSY or FATAL every write, also to CMD, changes nothing and leaves no trace. -/
def Obligations.WritesDroppedOutsideIdle : Prop :=
  ∀ (s : State) (l : Line) (ls : List Line), s.phase ≠ .idle → s.env.script = l :: ls →
    ((∃ n v, l = .csrWrite n v ∧ l.wellFormed s.ptMax = true) ∨ ∃ i b, l = .ibufWrite i b) →
    step s = .next (withScript ls s)

/-- R61: `CsrRead(n)` changes no state and returns the value of the table, KEY gated by PHASE. -/
def Obligations.CsrReadReturnsTable : Prop :=
  ∀ (s : State) (n : Nat) (ls : List Line), s.env.script = .csrRead n :: ls →
    ∃ (t : State) (v : CsrValue), step s = .next t ∧ SameCore s t ∧
      t.env = { s.env with script := ls, replies := v :: s.env.replies } ∧
      (n = 0x00 → v = .byte 0x00) ∧ (n = 0x01 → v = .byte (statusByte s)) ∧ (n = 0x02 → v = .byte s.err) ∧
      (n = 0x03 → v = .len s.ilen) ∧ (n = 0x04 → v = .len s.olen) ∧
      (n = 0x05 → s.phase = .idle → v = .key s.key) ∧
      (n = 0x05 → s.phase ≠ .idle → v = .key (Block.ofFn fun _ => 0x00)) ∧
      (0x05 < n → v = .byte 0x00)

/-- R62: `CsrWrite(n, v)`: dropped outside IDLE; CMD is accept, ILEN and KEY are stored and change nothing else, every other
number changes nothing. The width of ILEN and OLEN, which a value must have, is the least `w` with `2^w > BUF_CAP` (R12). -/
def Obligations.CsrWriteEffects : Prop :=
  (∀ p : Fin Config.ptBound, bufCap p = 80 + 16 * (p.val / 16 + 1) ∧ bufCap p < 2 ^ lenW p ∧
    ∀ w, bufCap p < 2 ^ w → lenW p ≤ w) ∧
  ∀ (s : State) (n : Nat) (v : CsrValue) (ls : List Line), s.env.script = .csrWrite n v :: ls →
    v.hasWidthOf s.ptMax n = true →
    ∃ t, step s = .next t ∧ t.env = { s.env with script := ls } ∧
      (s.phase ≠ .idle → SameCore s t) ∧
      (s.phase = .idle →
        (∀ b, n = 0x00 → v = .byte b → t = accept b (withScript ls s)) ∧
        (∀ l, n = 0x03 → v = .len l → t = { s with ilen := l, env := t.env }) ∧
        (∀ k, n = 0x05 → v = .key k → t = { s with key := k, keyValid := true, env := t.env }) ∧
        (n ≠ 0x00 → n ≠ 0x03 → n ≠ 0x05 → SameCore s t))

/-- R63: `IbufWrite(i, b)` in IDLE below BUF_CAP stores the one byte; otherwise nothing changes. -/
def Obligations.IbufWriteStoresOneByte : Prop :=
  ∀ (s : State) (i : Nat) (b : Byte) (ls : List Line), s.env.script = .ibufWrite i b :: ls →
    Memory.wf s.ibuf = true →
    ∃ t, step s = .next t ∧ t.env = { s.env with script := ls } ∧
      (s.phase = .idle ∧ i < bufCap s.ptMax →
        t = { s with ibuf := t.ibuf, env := t.env } ∧ Memory.read t.ibuf i = b ∧
        ∀ a, a ≠ i → Memory.read t.ibuf a = Memory.read s.ibuf a) ∧
      (¬(s.phase = .idle ∧ i < bufCap s.ptMax) → SameCore s t)

/-- R64: `ObufRead(i)` changes no state and returns `OBUF[i]` in IDLE below OLEN, 0x00 otherwise. -/
def Obligations.ObufReadIsGated : Prop :=
  ∀ (s : State) (i : Nat) (ls : List Line), s.env.script = .obufRead i :: ls →
    ∃ (t : State) (b : Byte), step s = .next t ∧ SameCore s t ∧
      t.env = { s.env with script := ls, replies := .byte b :: s.env.replies } ∧
      (s.phase = .idle ∧ i < s.olen → b = Memory.read s.obuf i) ∧ (¬(s.phase = .idle ∧ i < s.olen) → b = 0x00)

/-- R26: STATUS bit by bit. -/
def Obligations.StatusBits : Prop :=
  ∀ s : State,
    ((statusByte s).getLsbD 0 = true ↔ s.phase = .busy) ∧ (statusByte s).getLsbD 1 = s.done ∧
    (statusByte s).getLsbD 2 = s.error ∧ ((statusByte s).getLsbD 3 = true ↔ s.phase = .fatal) ∧
    (statusByte s).getLsbD 4 = s.keyValid ∧ (statusByte s).getLsbD 5 = false ∧
    (statusByte s).getLsbD 6 = false ∧ (statusByte s).getLsbD 7 = false

/-- R39: reset, enabled in every state (R300), puts every piece of state at its value, and STATUS then reads 0x00. The
parameter PT_MAX is no state; the agents' side goes on as it was. -/
def Obligations.ResetGivesStatedValues : Prop :=
  ∀ (s : State) (ls : List Line), s.env.script = .reset :: ls →
    ∃ t, step s = .next t ∧ t.phase = .idle ∧ t.done = false ∧ t.error = false ∧ t.err = 0x00 ∧
      t.key = Block.ofFn (fun _ => 0x00) ∧ t.keyValid = false ∧ t.ilen = 0 ∧ (∀ a, Memory.read t.ibuf a = 0x00) ∧
      t.olen = 0 ∧ (∀ a, obufReadValue a t = 0x00) ∧ t.cmdl = 0x00 ∧ t.work = zeroWork ∧ statusByte t = 0x00 ∧
      t.ptMax = s.ptMax ∧ t.env = { s.env with script := ls }

/-! ### GENKEY -/

/-- R195, completion: with the draw answered GENKEY ends with the drawn key, and nothing but KEY, KEY_VALID, DONE, PHASE, CMDL and
the working registers is written. -/
def Obligations.GenkeyEndsWithDrawnKey : Prop :=
  ∀ (s : State) (idx : Vector (Fin 62) 16), drawIndexes s = some idx →
    ∃ t, exec .genkey s = .next t ∧ (∀ j : Fin 16, t.key.get j = charset idx[j]) ∧ t.keyValid = true ∧
      t.done = true ∧ t.phase = .idle ∧ t.cmdl = 0x00 ∧ t.work = zeroWork ∧
      t.ptMax = s.ptMax ∧ t.error = s.error ∧ t.err = s.err ∧ t.ilen = s.ilen ∧ t.olen = s.olen ∧
      (∀ a, Memory.read t.ibuf a = Memory.read s.ibuf a) ∧ (∀ a, Memory.read t.obuf a = Memory.read s.obuf a) ∧
      t.env = { s.env with rng := none, drawn := s.env.drawn + 1 }

/-- R195, the whole command: written to CMD in IDLE it is accepted in every state, and the SEQ step ends it with the drawn key, each
byte a letter or a digit, DONE and no output, or, the draw never answered, in FATAL with KEY and KEY_VALID as they were. That the
starved command takes a step to FATAL, where R196 lets a model give it none, is the model's choice (log entry 11). -/
def Obligations.GenkeyCommandRuns : Prop :=
  ∀ (s : State) (ls : List Line), s.phase = .idle → s.env.script = .csrWrite 0x00 (.byte 0x01) :: .seq :: ls →
    ∃ u t, step s = .next u ∧ u.phase = .busy ∧ u.done = false ∧ u.error = false ∧ u.err = 0x00 ∧ u.olen = 0 ∧
      step u = .next t ∧ t.olen = 0 ∧ (∀ a, Memory.read t.obuf a = 0x00) ∧ t.ilen = s.ilen ∧
      (∀ a, Memory.read t.ibuf a = Memory.read s.ibuf a) ∧
      (∀ idx, drawIndexes s = some idx → (∀ j : Fin 16, t.key.get j = charset idx[j] ∧ isKeyChar (t.key.get j) = true) ∧
        t.keyValid = true ∧ t.done = true ∧ t.error = false ∧ t.err = 0x00 ∧ t.phase = .idle) ∧
      (drawIndexes s = none → t.key = s.key ∧ t.keyValid = s.keyValid ∧ t.done = false ∧ t.error = true ∧
        t.err = 0xFF ∧ t.phase = .fatal)

/-- R102: CHARSET is the alphabet a to z, A to Z, 0 to 9 in that order, and every byte of a generated key is in it. -/
def Obligations.GeneratedKeysInAlphabet : Prop :=
  (∀ k : Fin 62, (k.val < 26 → (charset k).toNat = 0x61 + k.val) ∧
    (26 ≤ k.val → k.val < 52 → (charset k).toNat = 0x41 + k.val - 26) ∧
    (52 ≤ k.val → (charset k).toNat = 0x30 + k.val - 52)) ∧
  ∀ (s t : State), exec .genkey s = .next t → t.phase = .idle → ∀ j : Fin 16, isKeyChar (t.key.get j) = true

/-! ### Starvation -/

/-- The model's choice of the two that R196 allows (log entry 11): a draw of GENKEY or ENCRYPT that is never answered ends in FATAL
with ERR 0xFF and nothing else changed; every write is then dropped, and only reset leads out. -/
def Obligations.StarvedDrawIsFatal : Prop :=
  ∀ (s : State) (i : Instr), (i = .genkey ∧ drawIndexes s = none) ∨ (i = .encrypt ∧ drawBytes s = none) →
    ∃ t, exec i s = .next t ∧ t.phase = .fatal ∧ t.error = true ∧ t.err = 0xFF ∧ t.cmdl = 0x00 ∧
      t.work = zeroWork ∧ t.olen = 0 ∧ (∀ a, Memory.read t.obuf a = 0x00) ∧ t.done = s.done ∧ SameOperands s t ∧
      t.env = { s.env with rng := none, drawn := s.env.drawn + 1 } ∧
      ∀ (ls : List Line) (u : State), step (withScript ls t) = .next u → nextLine (withScript ls t) ≠ some .reset →
        SameCore t u

/-! ### ENCRYPT and the blob -/

/-- R214: with the draw answered by `iv`, ENCRYPT completes to the state whose output is
`iv || CbcEncrypt(KEY, iv, Pad(P)) || Digest64(P)`; it stores OBUF `[0, OLEN)`, every other byte of both buffers and every
operand is unchanged. -/
def Obligations.EncryptEndsWithBlob : Prop :=
  ∀ (s : State) (iv : Block), drawBytes s = some iv → Memory.wf s.obuf = true →
    ∃ t, exec .encrypt s = .next t ∧
      outputBytes t =
        iv.toBytes ++ cbcEncrypt s.key iv (pad (inputBytes s)) ++ digest64 (inputBytes s) ∧
      t.olen = 96 + 16 * (s.ilen / 16) ∧ (∀ a, t.olen ≤ a → Memory.read t.obuf a = Memory.read s.obuf a) ∧
      t.done = true ∧ t.phase = .idle ∧ t.cmdl = 0x00 ∧ t.work = zeroWork ∧ t.error = s.error ∧ t.err = s.err ∧
      SameOperands s t ∧ t.env = { s.env with rng := none, drawn := s.env.drawn + 1 }

/-- R99: the length law of the blob. -/
def Obligations.BlobLengthLaw : Prop :=
  ∀ (k iv : Block) (p : List Byte),
    (encryptBlob k p iv).length = 16 + 64 + 16 * ((p.length + 1 + 15) / 16) ∧
    (p.length + 1 + 15) / 16 = p.length / 16 + 1 ∧ 96 ≤ (encryptBlob k p iv).length ∧
    (p.length ≤ 15 → (encryptBlob k p iv).length = 96) ∧ (encryptBlob k p iv).length % 16 = 0

/-- R211, R101: the serializer's fields stand at their positions, and the deserializer's split gives them back. -/
def Obligations.SerializedFieldsByPosition : Prop :=
  ∀ (iv : Block) (c tag : List Byte), tag.length = 64 →
    (serialize iv c tag).length = 16 + c.length + 64 ∧ slice (serialize iv c tag) 0 16 = iv.toBytes ∧
    slice (serialize iv c tag) 16 (16 + c.length) = c ∧
    slice (serialize iv c tag) (16 + c.length) (16 + c.length + 64) = tag ∧
    blobIv (serialize iv c tag) = iv ∧ blobCiphertext (serialize iv c tag) = c ∧ blobTag (serialize iv c tag) = tag

/-- R98, R172: the integrity tag is exactly 64 characters `0` to `9`, `a` to `f`, whatever the plaintext, and passes the hex
check of DECRYPT. -/
def Obligations.DigestFieldIsLowercaseHex : Prop :=
  ∀ p : List Byte, (digest64 p).length = 64 ∧ (digest64 p).all isLowerHex = true ∧ isHex64 (digest64 p) = true ∧
    (sha256 p).length = 32

/-! ### DECRYPT -/

/-- R244: the outcome of DECRYPT is the decision list over (KEY, B), the cases tried from the top; it draws nothing. -/
def Obligations.DecryptFollowsDecisionList : Prop :=
  ∀ s : State, Memory.wf s.obuf = true →
    ∃ t, exec .decrypt s = .next t ∧ SameOperands s t ∧ t.cmdl = 0x00 ∧ t.work = zeroWork ∧
      t.env = { s.env with rng := none } ∧ t.phase = .idle ∧
      (if s.ilen < 80 then EndedWithFailure 0x01 t ∧ t.done = s.done
      else if isHex64 (slice (inputBytes s) (s.ilen - 64) s.ilen) = false ∨ s.ilen = 80 ∨ (s.ilen - 80) % 16 ≠ 0 then
        EndedWithFailure 0x01 t ∧ t.done = s.done
      else
        match unpad (cbcDecrypt s.key (Block.ofBytes (slice (inputBytes s) 0 16))
            (slice (inputBytes s) 16 (s.ilen - 64))) with
        | none => EndedWithFailure 0x02 t ∧ t.done = s.done
        | some p =>
          if digest64 p ≠ slice (inputBytes s) (s.ilen - 64) s.ilen then EndedWithFailure 0x03 t ∧ t.done = s.done
          else t.done = true ∧ t.error = s.error ∧ t.err = s.err ∧ outputBytes t = p ∧ t.olen = p.length ∧
            ∀ a, t.olen ≤ a → Memory.read t.obuf a = Memory.read s.obuf a)

/-- R243: every length below 80, the length 80, and every length that leaves no whole number of blocks is MalformedBlob, whatever
the key and the bytes. -/
def Obligations.MalformedLengthsFail : Prop :=
  ∀ s : State, s.ilen < 80 ∨ s.ilen = 80 ∨ (80 < s.ilen ∧ (s.ilen - 80) % 16 ≠ 0) →
    ∃ t, exec .decrypt s = .next t ∧ EndedWithFailure 0x01 t ∧ t.done = s.done ∧ SameOperands s t

/-- R239: what a DECRYPT that ends with DONE proves of the blob it took. -/
def Obligations.DecryptSuccessMeans : Prop :=
  ∀ s t : State, Memory.wf s.obuf = true → s.done = false → exec .decrypt s = .next t → t.done = true →
    96 ≤ s.ilen ∧ (s.ilen - 80) % 16 = 0 ∧
    pad (outputBytes t) = cbcDecrypt s.key (Block.ofBytes (slice (inputBytes s) 0 16))
      (slice (inputBytes s) 16 (s.ilen - 64)) ∧
    digest64 (outputBytes t) = slice (inputBytes s) (s.ilen - 64) s.ilen

/-- R240: the round trip. A DECRYPT under the same KEY, whose input is the output of an ENCRYPT, ends with DONE and that ENCRYPT's
plaintext. -/
def Obligations.EncryptThenDecryptReturnsPlaintext : Prop :=
  ∀ (s t u : State) (iv : Block), drawBytes s = some iv → Memory.wf s.obuf = true → exec .encrypt s = .next t →
    u.key = s.key → u.ilen = t.olen → (∀ a, a < t.olen → Memory.read u.ibuf a = Memory.read t.obuf a) →
    Memory.wf u.obuf = true →
    ∃ v, exec .decrypt u = .next v ∧ v.done = true ∧ v.error = u.error ∧ v.phase = .idle ∧ v.olen = s.ilen ∧
      outputBytes v = inputBytes s

/-! ### CLEAR -/

/-- R254, completion: CLEAR zeroises KEY, KEY_VALID, ILEN and every byte of IBUF and sets DONE, in every state; the rest is unchanged. -/
def Obligations.ClearZeroisesOperands : Prop :=
  ∀ s : State, ∃ t, exec .clear s = .next t ∧ (∀ j : Fin 16, t.key.get j = 0x00) ∧ t.keyValid = false ∧ t.ilen = 0 ∧
    (∀ a, Memory.read t.ibuf a = 0x00) ∧ t.done = true ∧ t.phase = .idle ∧ t.cmdl = 0x00 ∧ t.work = zeroWork ∧
    t.ptMax = s.ptMax ∧ t.error = s.error ∧ t.err = s.err ∧ t.olen = s.olen ∧
    (∀ a, Memory.read t.obuf a = Memory.read s.obuf a) ∧ t.env = { s.env with rng := none }

/-- R254, the whole command: from any IDLE state of the invariant, CLEAR is accepted and ends with every piece of state at its reset
value but DONE, which is 1; STATUS then reads 0x02. -/
def Obligations.ClearCommandResetsAllButDone : Prop :=
  ∀ (s : State) (ls : List Line), Inv s → s.phase = .idle →
    s.env.script = .csrWrite 0x00 (.byte 0x04) :: .seq :: ls →
    ∃ u t, step s = .next u ∧ u.phase = .busy ∧ step u = .next t ∧
      t = { State.resetWith s.ptMax with done := true, env := t.env } ∧ statusByte t = 0x02

/-! ### What commands may change -/

/-- The frame of the four commands (R92, R195, R210, R230, R254): GENKEY leaves the input and output alone, ENCRYPT and DECRYPT leave the
key and the input alone, and none writes the parameter, the script or the replies. -/
def Obligations.CommandsChangeOnlyTheirPlaces : Prop :=
  ∀ (i : Instr) (s t : State), exec i s = .next t →
    t.ptMax = s.ptMax ∧ t.env.script = s.env.script ∧ t.env.replies = s.env.replies ∧ t.cmdl = 0x00 ∧
    t.work = zeroWork ∧ t.phase ≠ .busy ∧
    (i = .encrypt ∨ i = .decrypt → SameOperands s t) ∧
    (i = .genkey → t.ilen = s.ilen ∧ (∀ a, Memory.read t.ibuf a = Memory.read s.ibuf a) ∧
      (t.olen = s.olen ∧ (∀ a, Memory.read t.obuf a = Memory.read s.obuf a) ∨
        t.olen = 0 ∧ ∀ a, Memory.read t.obuf a = 0x00)) ∧
    (i = .clear → t.error = s.error ∧ t.err = s.err ∧ t.olen = s.olen ∧
      ∀ a, Memory.read t.obuf a = Memory.read s.obuf a)

/-- R267: a command that fails leaves its operands exactly as they were, no output, and DONE as it was. -/
def Obligations.FailedCommandLeavesNoTrace : Prop :=
  ∀ (i : Instr) (s t : State), exec i s = .next t → s.error = false → t.error = true →
    SameOperands s t ∧ t.olen = 0 ∧ (∀ a, Memory.read t.obuf a = 0x00) ∧ t.done = s.done ∧ t.err ≠ 0x00

/-- R252: the SEQ step is enabled exactly when PHASE is BUSY and carries out the command whose opcode is in CMDL; from a state of the
invariant it ends that command, with CMDL and the working registers zero, in IDLE with exactly one of DONE and ERROR set, or in
FATAL when the draw of GENKEY or ENCRYPT is never answered. The refusal outside BUSY is the model's choice of a form (log entry 4),
and so is the step to FATAL, which R196 lets a model leave out (log entry 11). -/
def Obligations.SequencerStepEndsCommand : Prop :=
  ∀ (s : State) (ls : List Line), s.env.script = .seq :: ls →
    (s.phase ≠ .busy → step s = .refused .sequencerNotEnabled) ∧
    (s.phase = .busy →
      (s.cmdl = 0x01 → step s = exec .genkey (withScript ls s)) ∧ (s.cmdl = 0x02 → step s = exec .encrypt (withScript ls s)) ∧
      (s.cmdl = 0x03 → step s = exec .decrypt (withScript ls s)) ∧ (s.cmdl = 0x04 → step s = exec .clear (withScript ls s))) ∧
    (s.phase = .busy → Inv s → ∃ t, step s = .next t ∧ t.cmdl = 0x00 ∧ t.work = zeroWork ∧
      (t.phase = .idle ∧ (t.done = true ∧ t.error = false ∨ t.done = false ∧ t.error = true) ∨
        t.phase = .fatal ∧ t.done = false ∧ t.error = true ∧
          (s.cmdl = 0x01 ∧ drawIndexes s = none ∨ s.cmdl = 0x02 ∧ drawBytes s = none)))

/-! ### Rules of the whole machine -/

/-- `Inv` holds after reset, whatever PT_MAX (R39, R28). -/
def Obligations.InvariantHoldsAtReset : Prop :=
  (∀ p, Inv (State.resetWith p)) ∧ Inv State.reset

/-- Every step keeps `Inv`: the six points of R28, the widths, the canonical buffers, the locked operands. -/
def Obligations.StepKeepsInvariant : Prop :=
  ∀ s t : State, Inv s → step s = .next t → Inv t

/-- R256: the complete transition relation of PHASE, row by row: in every state of the invariant, each event under its condition
leads to its target, and the rows take in every step there is. That BUSY with nothing more to come takes the SEQ step, and IDLE
none, is the model's choice (log entry 6), and so is the step of a starved draw to FATAL (log entry 11). -/
def Obligations.PhaseMovesAsTabled : Prop :=
  ∀ s t : State, Inv s → step s = .next t →
    (nextLine s = some .reset → t.phase = .idle) ∧
    (s.phase = .idle → nextLine s ≠ some .reset →
      (∀ v, nextLine s = some (.csrWrite 0x00 (.byte v)) →
        (check v s = none → t.phase = .busy) ∧
        ∀ e, check v s = some e → t.phase = .idle ∧ t.error = true ∧ t.err = e.code) ∧
      ((∀ v, nextLine s ≠ some (.csrWrite 0x00 (.byte v))) → t.phase = .idle)) ∧
    (s.phase = .busy → nextLine s ≠ some .reset →
      (SeqNext s → ¬Starves s →
        t.phase = .idle ∧ (t.done = true ∧ t.error = false ∨ t.done = false ∧ t.error = true)) ∧
      (SeqNext s → Starves s → t.phase = .fatal) ∧
      (¬SeqNext s → t.phase = .busy ∧ SameCore s t)) ∧
    (s.phase = .fatal → nextLine s ≠ some .reset → t.phase = .fatal ∧ SameCore s t)

/-- R22, R24: KEY and KEY_VALID change only by a host write of KEY taken in IDLE, by the SEQ step of GENKEY or CLEAR, or by reset. -/
def Obligations.KeyChangesOnlyByItsWriters : Prop :=
  ∀ s t : State, step s = .next t → t.key ≠ s.key ∨ t.keyValid ≠ s.keyValid →
    (s.phase = .idle ∧ ∃ k, nextLine s = some (.csrWrite 0x05 (.key k)) ∧ t.key = k ∧ t.keyValid = true) ∨
    (SeqNext s ∧ (s.cmdl = 0x01 ∧ t.keyValid = true ∨ s.cmdl = 0x04 ∧ t.keyValid = false)) ∨
    (nextLine s = some .reset ∧ t.keyValid = false)

/-- R30: ILEN and IBUF change only by host writes taken in IDLE, by the SEQ step of CLEAR, or by reset. -/
def Obligations.InputChangesOnlyByItsWriters : Prop :=
  ∀ s t : State, step s = .next t →
    (t.ilen ≠ s.ilen → (s.phase = .idle ∧ nextLine s = some (.csrWrite 0x03 (.len t.ilen))) ∨
      (SeqNext s ∧ s.cmdl = 0x04) ∨ nextLine s = some .reset) ∧
    (t.ibuf ≠ s.ibuf → (s.phase = .idle ∧ ∃ i b, nextLine s = some (.ibufWrite i b) ∧ i < bufCap s.ptMax) ∨
      (SeqNext s ∧ s.cmdl = 0x04) ∨ nextLine s = some .reset)

/-- R27, R31, R306: DONE, ERROR, ERR, OLEN and OBUF change only by a write to CMD taken in IDLE, by the SEQ step, or by reset. -/
def Obligations.ResultLastsUntilNextCommand : Prop :=
  ∀ s t : State, step s = .next t →
    ¬(s.phase = .idle ∧ ∃ v, nextLine s = some (.csrWrite 0x00 (.byte v))) → ¬SeqNext s → nextLine s ≠ some .reset →
    t.done = s.done ∧ t.error = s.error ∧ t.err = s.err ∧ t.olen = s.olen ∧ t.obuf = s.obuf ∧ t.cmdl = s.cmdl ∧
      t.work = s.work

/-- R33: accept of a legal command latches its opcode, and from then on, as long as the command is in flight, no step changes anything
of the core, KEY, ILEN and IBUF among it. -/
def Obligations.OperandsLockedInFlight : Prop :=
  (∀ (s t : State) (v : Byte), s.phase = .idle → nextLine s = some (.csrWrite 0x00 (.byte v)) → step s = .next t →
    t.phase = .busy → t.cmdl = v ∧ SameOperands s t) ∧
  ∀ s t : State, s.phase = .busy → step s = .next t → t.phase = .busy → SameCore s t

/-- R317: two states a host cannot tell apart take steps with the same outcome, to states it cannot tell apart (the replies to every read
are part of `env`). -/
def Obligations.HostViewDeterminesBehaviour : Prop :=
  ∀ s t : State, Indistinguishable s t → OutcomesRelated Indistinguishable (step s) (step t)

/-- R9: the result of a command is a function of KEY, ILEN, IBUF[0..ILEN) and the draw, and of nothing else: not of KEY_VALID, of
bytes of IBUF from ILEN on, of old output, of CMDL or of a working register. The flags are clear and OLEN is 0, as accept leaves
them. That GENKEY and ENCRYPT answer next states also where the draw is never answered, where R196 lets a model give them none, is
the model's choice (log entry 11). -/
def Obligations.CommandResultIsPure : Prop :=
  ∀ (i : Instr) (s t : State), s.key = t.key → s.ilen = t.ilen →
    (∀ a, a < s.ilen → Memory.read s.ibuf a = Memory.read t.ibuf a) →
    drawBytes s = drawBytes t → drawIndexes s = drawIndexes t →
    s.done = false → t.done = false → s.error = false → t.error = false → s.err = 0x00 → t.err = 0x00 →
    s.olen = 0 → t.olen = 0 → Memory.wf s.obuf = true → Memory.wf t.obuf = true →
    ∃ s' t', exec i s = .next s' ∧ exec i t = .next t' ∧ s'.phase = t'.phase ∧ s'.done = t'.done ∧
      s'.error = t'.error ∧ s'.err = t'.err ∧ s'.olen = t'.olen ∧ outputBytes s' = outputBytes t' ∧ s'.key = t'.key

/-- The canonical form decides a buffer: two canonical buffers that read alike at every index are the same data (20_memory.md, R67). -/
def Obligations.CanonicalBuffersAreEqual : Prop :=
  ∀ m n : Memory, Memory.wf m = true → Memory.wf n = true → (∀ a, Memory.read m a = Memory.read n a) → m = n

/-! ### The AES unit, CBC and padding -/

/-- R120: the laws of multiplication in GF(2^8), and the inverse. -/
def Obligations.FieldLaws : Prop :=
  (∀ a : Byte, xtime a = (a <<< 1) ^^^ (if a.getLsbD 7 then 0x1B else 0x00)) ∧
  (∀ a b : Byte, gmul a b = (List.range 8).foldl (fun x i => x ^^^ (if b.getLsbD i then xtime^[i] a else 0x00)) 0x00) ∧
  (∀ a b : Byte, gmul a b = gmul b a) ∧ (∀ a b c : Byte, gmul (gmul a b) c = gmul a (gmul b c)) ∧
  (∀ a b c : Byte, gmul a (b ^^^ c) = gmul a b ^^^ gmul a c) ∧ (∀ a : Byte, gmul a 0x01 = a ∧ gmul a 0x00 = 0x00) ∧
  ∀ a : Byte, a ≠ 0x00 → ∃ b : Byte, gmul a b = 0x01 ∧ ∀ c : Byte, gmul a c = 0x01 → c = b

/-- R123: SBOX is the field inverse followed by the affine map, a bijection with no fixed point, and SubBytes applies it to each byte
on its own. -/
def Obligations.SboxIsInverseThenAffine : Prop :=
  (∀ a : Byte, ∃ b : Byte, (a = 0x00 → b = 0x00) ∧ (a ≠ 0x00 → gmul a b = 0x01) ∧
    sbox a = b ^^^ rotl8 b 1 ^^^ rotl8 b 2 ^^^ rotl8 b 3 ^^^ rotl8 b 4 ^^^ 0x63) ∧
  (∀ a b : Byte, sbox a = sbox b → a = b) ∧ (∀ b : Byte, ∃ a, sbox a = b) ∧ (∀ a : Byte, sbox a ≠ a) ∧
  sbox 0x00 = 0x63 ∧ sbox 0x53 = 0xed ∧
  ∀ (s : Block) (i : Fin 16), (subBytes s).get i = sbox (s.get i)

/-- R124: INV_SBOX is the inverse permutation of SBOX, and InvSubBytes applies it to each byte. -/
def Obligations.InvSboxUndoesSbox : Prop :=
  (∀ a : Byte, invSbox (sbox a) = a ∧ sbox (invSbox a) = a) ∧ invSbox 0x63 = 0x00 ∧ invSbox 0xed = 0x53 ∧
  ∀ (s : Block) (i : Fin 16), (invSubBytes s).get i = invSbox (s.get i)

/-- R125, R126: row `r` rotated left, and right, by `r` columns, each undoing the other. -/
def Obligations.RowShiftsFollowFormula : Prop :=
  ∀ s : Block,
    (∀ (r c : Fin 4) (i j : Fin 16), i.val = r.val + 4 * c.val → j.val = r.val + 4 * ((c.val + r.val) % 4) →
      (shiftRows s).get i = s.get j) ∧
    (∀ (r c : Fin 4) (i j : Fin 16), i.val = r.val + 4 * c.val → j.val = r.val + 4 * ((c.val + 4 - r.val) % 4) →
      (invShiftRows s).get i = s.get j) ∧
    invShiftRows (shiftRows s) = s

/-- R128, R129: the column mixes by their coefficients, the four columns on their own, and InvMixColumns undoes MixColumns. -/
def Obligations.ColumnMixesFollowFormula : Prop :=
  (∀ a : Byte, gmul 0x02 a = xtime a ∧ gmul 0x03 a = xtime a ^^^ a ∧ mixColumn ⟨a, a, a, a⟩ = ⟨a, a, a, a⟩) ∧
  (∀ c : Column, mixColumn c =
    ⟨gmul 0x02 c.r0 ^^^ gmul 0x03 c.r1 ^^^ c.r2 ^^^ c.r3, c.r0 ^^^ gmul 0x02 c.r1 ^^^ gmul 0x03 c.r2 ^^^ c.r3,
     c.r0 ^^^ c.r1 ^^^ gmul 0x02 c.r2 ^^^ gmul 0x03 c.r3, gmul 0x03 c.r0 ^^^ c.r1 ^^^ c.r2 ^^^ gmul 0x02 c.r3⟩) ∧
  (∀ c : Column, invMixColumn c =
    ⟨gmul 0x0e c.r0 ^^^ gmul 0x0b c.r1 ^^^ gmul 0x0d c.r2 ^^^ gmul 0x09 c.r3,
     gmul 0x09 c.r0 ^^^ gmul 0x0e c.r1 ^^^ gmul 0x0b c.r2 ^^^ gmul 0x0d c.r3,
     gmul 0x0d c.r0 ^^^ gmul 0x09 c.r1 ^^^ gmul 0x0e c.r2 ^^^ gmul 0x0b c.r3,
     gmul 0x0b c.r0 ^^^ gmul 0x0d c.r1 ^^^ gmul 0x09 c.r2 ^^^ gmul 0x0e c.r3⟩) ∧
  ∀ s : Block, mixColumns s = ⟨mixColumn s.c0, mixColumn s.c1, mixColumn s.c2, mixColumn s.c3⟩ ∧
    invMixColumns s = ⟨invMixColumn s.c0, invMixColumn s.c1, invMixColumn s.c2, invMixColumn s.c3⟩ ∧
    invMixColumns (mixColumns s) = s

/-- R127: the 44 words of the expanded key, the first four the key's, the rest by the recurrence with the ten round constants; round key
`n` is the words `4n` to `4n + 3`. -/
def Obligations.KeyExpansionRecurrence : Prop :=
  (∀ b0 b1 b2 b3 : Byte, rotWord ⟨b0, b1, b2, b3⟩ = ⟨b1, b2, b3, b0⟩ ∧
    subWord ⟨b0, b1, b2, b3⟩ = ⟨sbox b0, sbox b1, sbox b2, sbox b3⟩) ∧
  ∀ k : Block, (keyExpansion k).length = 44 ∧
    (∀ i, i < 4 → ((keyExpansion k).getD i default).toBytes = slice k.toBytes (4 * i) (4 * i + 4)) ∧
    (∀ i, 4 ≤ i → i < 44 →
      (keyExpansion k).getD i default =
        ((keyExpansion k).getD (i - 4) default).xor
          (if i % 4 = 0 then
            (subWord (rotWord ((keyExpansion k).getD (i - 1) default))).xor
              ⟨[0x01, 0x02, 0x04, 0x08, 0x10, 0x20, 0x40, 0x80, 0x1b, 0x36].getD (i / 4 - 1) 0x00, 0x00, 0x00, 0x00⟩
          else (keyExpansion k).getD (i - 1) default)) ∧
    ∀ n, n ≤ 10 → (roundKey (keyExpansion k) n).toBytes =
      ((keyExpansion k).getD (4 * n) default).toBytes ++ ((keyExpansion k).getD (4 * n + 1) default).toBytes ++
        ((keyExpansion k).getD (4 * n + 2) default).toBytes ++ ((keyExpansion k).getD (4 * n + 3) default).toBytes

/-- R130: AddRoundKey XORs byte `r` of word `4n + c` onto byte `r + 4c`, is its own inverse, and round key 0 is the key. -/
def Obligations.RoundKeyAdditionFollowsFormula : Prop :=
  (∀ (w : List Column) (n : Nat) (s : Block),
    (∀ (r c : Fin 4) (i : Fin 16), i.val = r.val + 4 * c.val →
      (addRoundKey w n s).get i = s.get i ^^^ (w.getD (4 * n + c.val) default).toBytes.getD r.val 0x00) ∧
    addRoundKey w n (addRoundKey w n s) = s) ∧
  ∀ k : Block, roundKey (keyExpansion k) 0 = k

/-- R131, R132: the cipher is round key 0, nine whole rounds under round keys 1 to 9, and a last round under round key 10 without
MixColumns; the inverse cipher is its rounds in the stated order, the round keys used from 10 down to 0. -/
def Obligations.BlockCipherFollowsRounds : Prop :=
  ∀ k b : Block,
    (∃ s : Nat → Block, s 0 = addRoundKey (keyExpansion k) 0 b ∧
      (∀ n, 1 ≤ n → n ≤ 9 → s n = addRoundKey (keyExpansion k) n (mixColumns (shiftRows (subBytes (s (n - 1)))))) ∧
      aesEncBlock k b = addRoundKey (keyExpansion k) 10 (shiftRows (subBytes (s 9)))) ∧
    ∃ s : Nat → Block, s 10 = addRoundKey (keyExpansion k) 10 b ∧
      (∀ n, 1 ≤ n → n ≤ 9 → s n = invMixColumns (addRoundKey (keyExpansion k) n (invSubBytes (invShiftRows (s (n + 1)))))) ∧
      aesDecBlock k b = addRoundKey (keyExpansion k) 0 (invSubBytes (invShiftRows (s 1)))

/-- R133: under every key, deciphering undoes enciphering and enciphering undoes deciphering. -/
def Obligations.BlockCipherIsBijective : Prop :=
  ∀ k b : Block, aesDecBlock k (aesEncBlock k b) = b ∧ aesEncBlock k (aesDecBlock k b) = b

/-- R141, R142: each ciphertext block is the cipher of the message block XORed with the ciphertext block before it, the IV standing
before the first; decryption takes the same chain off again. -/
def Obligations.CbcChainsBlocks : Prop :=
  ∀ (k iv : Block) (m : List Byte), m.length % 16 = 0 →
    (cbcEncrypt k iv m).length = m.length ∧ (cbcDecrypt k iv m).length = m.length ∧
    ∀ j, j < m.length / 16 →
      slice (cbcEncrypt k iv m) (16 * j) (16 * j + 16) =
        (aesEncBlock k ((Block.ofBytes (slice m (16 * j) (16 * j + 16))).xor
          (if j = 0 then iv else Block.ofBytes (slice (cbcEncrypt k iv m) (16 * (j - 1)) (16 * (j - 1) + 16))))).toBytes ∧
      slice (cbcDecrypt k iv m) (16 * j) (16 * j + 16) =
        ((aesDecBlock k (Block.ofBytes (slice m (16 * j) (16 * j + 16)))).xor
          (if j = 0 then iv else Block.ofBytes (slice m (16 * (j - 1)) (16 * (j - 1) + 16)))).toBytes

/-- R143: CBC decryption undoes CBC encryption on every block-aligned message, under every key and IV. -/
def Obligations.CbcDecryptUndoesEncrypt : Prop :=
  ∀ (k iv : Block) (m : List Byte), m.length % 16 = 0 → cbcDecrypt k iv (cbcEncrypt k iv m) = m

/-- R144: Pad appends `n = 16 - (L mod 16)` bytes of value `n`, and the result has `16 * (floor(L / 16) + 1)` bytes. -/
def Obligations.PadAppendsPadBytes : Prop :=
  ∀ p : List Byte, ∃ n : Nat, n = 16 - p.length % 16 ∧ 1 ≤ n ∧ n ≤ 16 ∧ (pad p).take p.length = p ∧
    (∀ b ∈ (pad p).drop p.length, b.toNat = n) ∧ (pad p).length = p.length + n ∧
    (pad p).length = 16 * (p.length / 16 + 1)

/-- R146: Unpad takes back exactly what Pad gives, and accepts of the block-aligned byte strings exactly the padded ones. -/
def Obligations.UnpadAcceptsExactlyPadded : Prop :=
  (∀ p : List Byte, unpad (pad p) = some p) ∧
  ∀ m p : List Byte, m ≠ [] → m.length % 16 = 0 → (unpad m = some p ↔ m = pad p)

/-! ### The SHA unit and the hex encoder -/

/-- R160, R161, R162: the word functions bit by bit, and the round constants: `K[t]` is the first 32 bits of the fractional part of the
cube root of prime number `t`. -/
def Obligations.ShaWordFunctionsAndConstants : Prop :=
  (∀ (x : Word) (n i : Nat), 0 < n → n < 32 → i < 32 → (rotr x n).getLsbD i = x.getLsbD ((i + n) % 32)) ∧
  (∀ (x y z : Word) (i : Nat), i < 32 →
    (ch x y z).getLsbD i = ((x.getLsbD i && y.getLsbD i) ^^ (!x.getLsbD i && z.getLsbD i)) ∧
    (maj x y z).getLsbD i = ((x.getLsbD i && y.getLsbD i) ^^ (x.getLsbD i && z.getLsbD i) ^^ (y.getLsbD i && z.getLsbD i))) ∧
  (∀ x : Word, bsig0 x = rotr x 2 ^^^ rotr x 13 ^^^ rotr x 22 ∧ bsig1 x = rotr x 6 ^^^ rotr x 11 ^^^ rotr x 25 ∧
    ssig0 x = rotr x 7 ^^^ rotr x 18 ^^^ (x >>> 3) ∧ ssig1 x = rotr x 17 ^^^ rotr x 19 ^^^ (x >>> 10)) ∧
  shaK.length = 64 ∧ (primesBelow 312).length = 64 ∧
  ∀ t, t < 64 → ∃ r : Nat, r ^ 3 ≤ (primesBelow 312).getD t 0 * 2 ^ 96 ∧
    (primesBelow 312).getD t 0 * 2 ^ 96 < (r + 1) ^ 3 ∧ shaK.getD t 0 = BitVec.ofNat 32 r

/-- R163, R168, R169: the hash of a message starts from the first 32 bits of the fractional parts of the square roots of the first
eight primes, takes the 64-byte blocks of the padded message in order, each through 64 rounds whose result is added word by word,
and ends as the digest of the last hash value. -/
def Obligations.ShaHashFollowsRounds : Prop :=
  (∀ i, i < 8 → ∃ r : Nat, r ^ 2 ≤ (primesBelow 20).getD i 0 * 2 ^ 64 ∧ (primesBelow 20).getD i 0 * 2 ^ 64 < (r + 1) ^ 2 ∧
    [shaInit.a, shaInit.b, shaInit.c, shaInit.d, shaInit.e, shaInit.f, shaInit.g, shaInit.h].getD i 0 = BitVec.ofNat 32 r) ∧
  (∀ (h : HashState) (b : List Byte), ∃ v : Nat → HashState, v 0 = h ∧
    (∀ t, t < 64 → ∃ t1 t2 : Word,
      t1 = (v t).h + bsig1 (v t).e + ch (v t).e (v t).f (v t).g + shaK.getD t 0 + (shaSchedule b).getD t 0 ∧
      t2 = bsig0 (v t).a + maj (v t).a (v t).b (v t).c ∧
      v (t + 1) = ⟨t1 + t2, (v t).a, (v t).b, (v t).c, (v t).d + t1, (v t).e, (v t).f, (v t).g⟩) ∧
    shaCompress h b = ⟨h.a + (v 64).a, h.b + (v 64).b, h.c + (v 64).c, h.d + (v 64).d, h.e + (v 64).e, h.f + (v 64).f,
      h.g + (v 64).g, h.h + (v 64).h⟩) ∧
  ∀ m : List Byte, m.length ≤ 2 ^ 61 - 1 → ∃ v : Nat → HashState, v 0 = shaInit ∧
    (∀ i, i < (shaPad m).length / 64 → v (i + 1) = shaCompress (v i) (slice (shaPad m) (64 * i) (64 * i + 64))) ∧
    sha256 m = digestBytes (v ((shaPad m).length / 64))

/-- R165: the padded message, with `k` the least number of zero bytes that brings the length to 56 modulo 64, and the 64-bit big-endian
length in bits at the end; its length. -/
def Obligations.ShaPaddingForm : Prop :=
  ∀ m : List Byte, m.length ≤ 2 ^ 61 - 1 → ∃ (k : Nat) (e : List Byte),
    shaPad m = m ++ [0x80] ++ List.replicate k 0x00 ++ e ∧ (m.length + 1 + k) % 64 = 56 ∧
    (∀ j, (m.length + 1 + j) % 64 = 56 → k ≤ j) ∧ e.length = 8 ∧ bigEndian e = 8 * m.length ∧
    (shaPad m).length = 64 * ((m.length + 8) / 64 + 1)

/-- R167: the message schedule: 16 big-endian words of the block, then the recurrence. -/
def Obligations.ShaScheduleRecurrence : Prop :=
  ∀ b : List Byte, (shaSchedule b).length = 64 ∧
    (∀ t, t < 16 → ((shaSchedule b).getD t 0).toNat =
      (b.getD (4 * t) 0).toNat * 2 ^ 24 + (b.getD (4 * t + 1) 0).toNat * 2 ^ 16 +
        (b.getD (4 * t + 2) 0).toNat * 2 ^ 8 + (b.getD (4 * t + 3) 0).toNat) ∧
    ∀ t, 16 ≤ t → t < 64 → (shaSchedule b).getD t 0 =
      ssig1 ((shaSchedule b).getD (t - 2) 0) + (shaSchedule b).getD (t - 7) 0 +
        ssig0 ((shaSchedule b).getD (t - 15) 0) + (shaSchedule b).getD (t - 16) 0

/-- R170: the digest is the eight words in order, each most significant byte first. -/
def Obligations.DigestIsBigEndian : Prop :=
  ∀ h : HashState, (digestBytes h).length = 32 ∧
    (List.range 8).map (fun i => bigEndian (slice (digestBytes h) (4 * i) (4 * i + 4))) =
      [h.a, h.b, h.c, h.d, h.e, h.f, h.g, h.h].map BitVec.toNat

/-- R171: two lowercase characters for each byte in order, the high nibble first, by the table of R104. -/
def Obligations.HexEncodeByNibbles : Prop :=
  (∀ v, v < 10 → (hexDigit v).toNat = 0x30 + v) ∧ (∀ v, 10 ≤ v → v < 16 → (hexDigit v).toNat = 0x61 + (v - 10)) ∧
  ∀ d : List Byte, (hexEncode d).length = 2 * d.length ∧
    ∀ i, i < d.length →
      (hexEncode d).getD (2 * i) 0 = hexDigit ((d.getD i 0).extractLsb' 4 4).toNat ∧
      (hexEncode d).getD (2 * i + 1) 0 = hexDigit ((d.getD i 0).extractLsb' 0 4).toNat

/-- R173, R100: the hex check looks at each byte on its own and takes exactly the 22 codes. -/
def Obligations.HexCheckTakesTwentyTwoCodes : Prop :=
  ∀ t : List Byte, isHex64 t = true ↔ ∀ b ∈ t, (0x30 ≤ b.toNat ∧ b.toNat ≤ 0x39) ∨
    (0x61 ≤ b.toNat ∧ b.toNat ≤ 0x66) ∨ (0x41 ≤ b.toNat ∧ b.toNat ≤ 0x46)
end

