-- ==== Sys2Proof/Laws/Bytes.lean ====
section
/-! SUPPORT. Lengths of the byte strings the units produce, and the two views of a block-aligned byte string. -/

namespace Sys2Proof.Machine

/-! ### Blocks and byte strings -/

@[simp] theorem toBytes_length (b : Block) : b.toBytes.length = 16 := rfl

@[simp] theorem ofFn_get (f : Fin 16 → Byte) (i : Fin 16) : (Block.ofFn f).get i = f i := by
  fin_cases i <;> rfl

/-- Two blocks with the same 16 bytes are the same block. -/
theorem block_ext {b c : Block} (h : ∀ i, b.get i = c.get i) : b = c := by
  have g : ∀ d : Block, Block.ofFn d.get = d := fun _ => rfl
  rw [← g b, ← g c, show b.get = c.get from funext h]

@[simp] theorem ofBytes_toBytes (b : Block) : Block.ofBytes b.toBytes = b := rfl

theorem ofBytes_append_toBytes (b : Block) (l : List Byte) : Block.ofBytes (b.toBytes ++ l) = b := rfl

/-- A byte string of 16 bytes is the bytes of its block. -/
theorem toBytes_ofBytes {l : List Byte} (h : l.length = 16) : (Block.ofBytes l).toBytes = l := by
  refine List.ext_getElem (by simp [h]) fun i hi hi' => ?_
  have e : (Block.ofBytes l).get ⟨i, by omega⟩ = l.getD i 0 := ofFn_get _ _
  rw [Block.get] at e
  simpa only [List.getD_eq_getElem?_getD, List.getElem?_eq_getElem hi, List.getElem?_eq_getElem hi',
    Option.getD_some] using e

@[simp] theorem toBlocks_length (m : List Byte) : (toBlocks m).length = m.length / 16 := by simp [toBlocks]

@[simp] theorem ofBlocks_nil : ofBlocks [] = [] := rfl

@[simp] theorem ofBlocks_cons (b : Block) (bs : List Block) : ofBlocks (b :: bs) = b.toBytes ++ ofBlocks bs := rfl

@[simp] theorem ofBlocks_length (bs : List Block) : (ofBlocks bs).length = 16 * bs.length := by
  induction bs with
  | nil => rfl
  | cons b bs ih => simp [ih]; omega

/-- Cutting the bytes of blocks into blocks gives the blocks. -/
@[simp] theorem toBlocks_ofBlocks (bs : List Block) : toBlocks (ofBlocks bs) = bs := by
  refine List.ext_getElem (by simp) fun i hi hi' => ?_
  have key : ∀ (cs : List Block) (j : Nat) (hj : j < cs.length), Block.ofBytes ((ofBlocks cs).drop (16 * j)) = cs[j] := by
    intro cs
    induction cs with
    | nil => intro j hj; simp at hj
    | cons c cs ih =>
      intro j hj
      cases j with
      | zero => exact ofBytes_append_toBytes c _
      | succ j =>
        rw [ofBlocks_cons, List.drop_append, List.drop_eq_nil_of_le (by rw [toBytes_length]; omega), List.nil_append,
          toBytes_length, show 16 * (j + 1) - 16 = 16 * j by omega, List.getElem_cons_succ]
        exact ih j (by simpa using hj)
  simpa [toBlocks] using key bs i hi'

/-- A block-aligned byte string is the bytes of its blocks. -/
theorem ofBlocks_toBlocks {m : List Byte} (h : m.length % 16 = 0) : ofBlocks (toBlocks m) = m := by
  obtain ⟨n, hn⟩ : ∃ n, m.length = 16 * n := ⟨m.length / 16, by omega⟩
  clear h
  have step : ∀ l : List Byte, 16 ≤ l.length → toBlocks l = Block.ofBytes (l.take 16) :: toBlocks (l.drop 16) := by
    intro l hl
    have e : Block.ofBytes (l.take 16) = Block.ofBytes l := by
      refine block_ext fun i => ?_
      rw [Block.ofBytes, Block.ofBytes, ofFn_get, ofFn_get, List.getD_eq_getElem?_getD, List.getD_eq_getElem?_getD,
        List.getElem?_take_of_lt i.isLt]
    rw [toBlocks, show l.length / 16 = (l.length - 16) / 16 + 1 by omega, List.range_succ_eq_map, List.map_cons,
      List.map_map, toBlocks, List.length_drop, e]
    congr 1
    refine List.map_congr_left fun j _ => ?_
    rw [Function.comp, List.drop_drop, show 16 * (j + 1) = 16 + 16 * j by omega]
  induction n generalizing m with
  | zero =>
    have : m = [] := List.eq_nil_of_length_eq_zero (by omega)
    subst this
    rfl
  | succ n ih =>
    rw [step m (by omega), ofBlocks_cons, toBytes_ofBytes (by rw [List.length_take]; omega),
      ih (m := m.drop 16) (by rw [List.length_drop]; omega), List.take_append_drop]

theorem slice_length (l : List Byte) (i j : Nat) : (slice l i j).length = min j l.length - i := by simp [slice]

/-! ### CBC and padding -/

@[simp] theorem cbcEncBlocks_length (k chain : Block) (ms : List Block) :
    (cbcEncBlocks k chain ms).length = ms.length := by
  induction ms generalizing chain with
  | nil => rfl
  | cons m ms ih => simp [cbcEncBlocks, ih]

@[simp] theorem cbcDecBlocks_length (k chain : Block) (cs : List Block) :
    (cbcDecBlocks k chain cs).length = cs.length := by
  induction cs generalizing chain with
  | nil => rfl
  | cons c cs ih => simp [cbcDecBlocks, ih]

@[simp] theorem cbcEncrypt_length (k iv : Block) (m : List Byte) :
    (cbcEncrypt k iv m).length = 16 * (m.length / 16) := by simp [cbcEncrypt]

@[simp] theorem cbcDecrypt_length (k iv : Block) (c : List Byte) :
    (cbcDecrypt k iv c).length = 16 * (c.length / 16) := by simp [cbcDecrypt]

theorem padLength_bounds (l : Nat) : 1 ≤ padLength l ∧ padLength l ≤ 16 := by
  rw [padLength]
  omega

@[simp] theorem pad_length (p : List Byte) : (pad p).length = 16 * (p.length / 16) + 16 := by
  rw [pad, List.length_append, List.length_replicate, padLength]
  omega

/-- What Unpad returns is a prefix, shorter than its operand. -/
theorem unpad_length {m p : List Byte} (h : unpad m = some p) : p.length ≤ m.length := by
  rw [unpad] at h
  split at h
  · cases h
  · split at h
    · cases h
    · cases h
      simp

/-! ### The digest -/

@[simp] theorem wordToBytes_length (w : Word) : (wordToBytes w).length = 4 := rfl

@[simp] theorem be64_length (v : Nat) : (be64 v).length = 8 := rfl

@[simp] theorem digestBytes_length (h : HashState) : (digestBytes h).length = 32 := rfl

@[simp] theorem sha256_length (m : List Byte) : (sha256 m).length = 32 := by
  rw [sha256]
  split <;> rfl

@[simp] theorem hexEncode_length (d : List Byte) : (hexEncode d).length = 2 * d.length := by
  induction d with
  | nil => rfl
  | cons b d ih =>
    rw [hexEncode, List.flatMap_cons, List.length_append, ← hexEncode, ih, List.length_cons,
      show (hexByte b).length = 2 from rfl]
    omega

@[simp] theorem digest64_length (p : List Byte) : (digest64 p).length = 64 := by simp [digest64]

@[simp] theorem serialize_length (iv : Block) (c tag : List Byte) :
    (serialize iv c tag).length = 16 + c.length + tag.length := by simp [serialize]; omega

/-- What DECRYPT returns is shorter than its blob. -/
theorem decryptBlob_length {k : Block} {b p : List Byte} (h : decryptBlob k b = .ok p) : p.length ≤ b.length := by
  rw [decryptBlob] at h
  split at h
  · cases h
  · split at h
    · cases h
    · split at h
      · cases h
      · split at h
        · cases h
        · rename_i q hq
          split at h
          · cases h
          · cases h
            have h1 := unpad_length hq
            rw [cbcDecrypt_length, blobCiphertext, slice_length] at h1
            omega

end Sys2Proof.Machine
end

