-- ==== Sys2Proof/Laws/Memory.lean ====
section
/-! SUPPORT. The laws of the sparse buffers: every operation keeps the canonical form, a byte read after a write is the byte
written, and a write leaves every other index alone. -/

namespace Sys2Proof.Machine

theorem wfFrom_cons {lo k : Nat} {v : Byte} {m : Memory} :
    Memory.wfFrom lo ((k, v) :: m) = true ↔ lo ≤ k ∧ v ≠ 0 ∧ Memory.wfFrom (k + 1) m = true := by
  simp [Memory.wfFrom, and_assoc]

theorem wfFrom_mono {lo lo' : Nat} {m : Memory} (h : Memory.wfFrom lo m = true) (hl : lo' ≤ lo) :
    Memory.wfFrom lo' m = true := by
  cases m with
  | nil => rfl
  | cons c m =>
    obtain ⟨k, v⟩ := c
    rw [wfFrom_cons] at h ⊢
    exact ⟨by omega, h.2⟩

theorem wfFrom_wf {lo : Nat} {m : Memory} (h : Memory.wfFrom lo m = true) : Memory.wf m = true :=
  wfFrom_mono h (Nat.zero_le lo)

@[simp] theorem wf_nil : Memory.wf [] = true := rfl

@[simp] theorem read_nil (a : Nat) : Memory.read [] a = 0 := rfl

theorem read_of_lt {m : Memory} : ∀ {lo a : Nat}, Memory.wfFrom lo m = true → a < lo → Memory.read m a = 0 := by
  induction m with
  | nil => intros; rfl
  | cons c m ih =>
    obtain ⟨k, v⟩ := c
    intro lo a h ha
    rw [wfFrom_cons] at h
    rw [Memory.read, if_neg (by omega)]
    exact ih h.2.2 (by omega)

theorem wfFrom_write {m : Memory} {b : Byte} : ∀ {lo a : Nat}, Memory.wfFrom lo m = true → lo ≤ a →
    Memory.wfFrom lo (Memory.write m a b) = true := by
  induction m with
  | nil =>
    intro lo a _ ha
    rw [Memory.write]
    split
    · rfl
    · exact wfFrom_cons.2 ⟨ha, ‹_›, rfl⟩
  | cons c m ih =>
    obtain ⟨k, v⟩ := c
    intro lo a h ha
    have h' := wfFrom_cons.1 h
    rw [Memory.write]
    split
    · split
      · exact h
      · rw [wfFrom_cons, wfFrom_cons]
        exact ⟨ha, ‹_›, by omega, h'.2⟩
    · split
      · split
        · exact wfFrom_mono h'.2.2 (by omega)
        · rw [wfFrom_cons]
          exact ⟨ha, ‹_›, by subst_vars; exact h'.2.2⟩
      · rw [wfFrom_cons]
        exact ⟨h'.1, h'.2.1, ih h'.2.2 (by omega)⟩

/-- A write keeps the canonical form. -/
theorem wf_write {m : Memory} (a : Nat) (b : Byte) (h : Memory.wf m = true) : Memory.wf (Memory.write m a b) = true :=
  wfFrom_write h (Nat.zero_le a)

theorem read_write_from {m : Memory} {b : Byte} {c : Nat} : ∀ {lo a : Nat}, Memory.wfFrom lo m = true →
    Memory.read (Memory.write m a b) c = if c = a then b else Memory.read m c := by
  induction m with
  | nil =>
    intro lo a _
    rw [Memory.write]
    by_cases hb : b = 0
    · simp [hb]
    · simp only [hb, if_false, Memory.read, eq_comm]
  | cons d m ih =>
    obtain ⟨k, v⟩ := d
    intro lo a h
    have h' := wfFrom_cons.1 h
    rw [Memory.write]
    split
    · have ha : Memory.read ((k, v) :: m) a = 0 := by
        rw [Memory.read, if_neg (by omega)]
        exact read_of_lt h'.2.2 (by omega)
      split
      · by_cases hc : c = a
        · rw [if_pos hc, hc, ha, ‹b = 0›]
        · rw [if_neg hc]
      · rw [Memory.read]
        by_cases hc : c = a
        · rw [if_pos hc.symm, if_pos hc]
        · rw [if_neg (Ne.symm hc), if_neg hc]
    · split
      · have hak : a = k := ‹_›
        split
        · by_cases hc : c = a
          · rw [if_pos hc, hc, read_of_lt h'.2.2 (by omega), ‹b = 0›]
          · rw [if_neg hc, Memory.read, if_neg (by omega)]
        · by_cases hc : c = a
          · rw [if_pos hc, Memory.read, if_pos hc.symm]
          · rw [if_neg hc, Memory.read, Memory.read, if_neg (by omega), if_neg (by omega)]
      · rw [Memory.read, Memory.read, ih h'.2.2]
        by_cases hk : k = c
        · rw [if_pos hk, if_pos hk, if_neg (by omega)]
        · rw [if_neg hk, if_neg hk]

/-- A read after a write: the byte written at its index, the old byte everywhere else. -/
theorem read_write {m : Memory} (h : Memory.wf m = true) (a : Nat) (b : Byte) (c : Nat) :
    Memory.read (Memory.write m a b) c = if c = a then b else Memory.read m c :=
  read_write_from h

/-- A byte string written keeps the canonical form. -/
theorem wf_memWrite {m : Memory} (a : Nat) (bs : List Byte) (h : Memory.wf m = true) :
    Memory.wf (memWrite m a bs) = true := by
  induction bs generalizing m a with
  | nil => exact h
  | cons b bs ih => exact ih (a + 1) (wf_write a b h)

/-- A read after a byte string was written: its byte inside it, the old byte everywhere else. -/
theorem read_memWrite {m : Memory} (h : Memory.wf m = true) (a : Nat) (bs : List Byte) (c : Nat) :
    Memory.read (memWrite m a bs) c =
      if a ≤ c ∧ c < a + bs.length then bs.getD (c - a) 0 else Memory.read m c := by
  induction bs generalizing m a with
  | nil =>
    rw [memWrite, if_neg (by simp only [List.length_nil]; omega)]
  | cons b bs ih =>
    rw [memWrite, ih (wf_write a b h), read_write h, List.length_cons]
    rcases Nat.lt_trichotomy c a with hc | hc | hc
    · rw [if_neg (by omega), if_neg (by omega), if_neg (by omega)]
    · subst hc
      rw [if_neg (by omega), if_pos rfl, if_pos (by omega), Nat.sub_self, List.getD_cons_zero]
    · by_cases hl : c < a + 1 + bs.length
      · rw [if_pos (by omega), if_pos (by omega), show c - a = (c - (a + 1)) + 1 by omega, List.getD_cons_succ]
      · rw [if_neg (by omega), if_neg (by omega), if_neg (by omega)]

@[simp] theorem memRead_length (m : Memory) (a n : Nat) : (memRead m a n).length = n := by simp [memRead]

theorem memRead_getD {m : Memory} {n i : Nat} (h : i < n) : (memRead m 0 n).getD i 0 = Memory.read m i := by
  simp [memRead, List.getD_eq_getElem?_getD, List.getElem?_range h]

/-- Two buffers that read alike below `n` hold the same byte string there. -/
theorem memRead_congr {m m' : Memory} {n : Nat} (h : ∀ a, a < n → Memory.read m a = Memory.read m' a) :
    memRead m 0 n = memRead m' 0 n := by
  refine List.map_congr_left fun i hi => ?_
  rw [Nat.zero_add]
  exact h i (List.mem_range.1 hi)

/-- The byte string written from index 0 on is the byte string read there. -/
theorem memRead_memWrite {m : Memory} (h : Memory.wf m = true) (bs : List Byte) :
    memRead (memWrite m 0 bs) 0 bs.length = bs := by
  refine List.ext_getElem (by simp) fun i hi hi' => ?_
  simp only [memRead, List.getElem_map, List.getElem_range, Nat.zero_add]
  rw [read_memWrite h, if_pos (by omega)]
  simp [List.getD_eq_getElem?_getD, hi']

theorem below_cons {n k : Nat} {v : Byte} {m : Memory} :
    Memory.below n ((k, v) :: m) = true ↔ k < n ∧ Memory.below n m = true := by
  rw [Memory.below, List.all_cons, Bool.and_eq_true, decide_eq_true_eq, ← Memory.below]

theorem read_of_below {m : Memory} {n a : Nat} (h : Memory.below n m = true) (ha : n ≤ a) : Memory.read m a = 0 := by
  induction m with
  | nil => rfl
  | cons c m ih =>
    obtain ⟨k, v⟩ := c
    rw [below_cons] at h
    rw [Memory.read, if_neg (by omega)]
    exact ih h.2

theorem below_write {m : Memory} {n a : Nat} {b : Byte} (h : Memory.below n m = true) (ha : a < n) :
    Memory.below n (Memory.write m a b) = true := by
  induction m with
  | nil =>
    rw [Memory.write]
    split
    · rfl
    · exact below_cons.2 ⟨ha, rfl⟩
  | cons c m ih =>
    obtain ⟨k, v⟩ := c
    have h' := below_cons.1 h
    rw [Memory.write]
    split
    · split
      · exact h
      · exact below_cons.2 ⟨ha, h⟩
    · split
      · split
        · exact h'.2
        · exact below_cons.2 ⟨ha, h'.2⟩
      · exact below_cons.2 ⟨h'.1, ih h'.2⟩

theorem below_mono {m : Memory} {n n' : Nat} (h : Memory.below n m = true) (hn : n ≤ n') : Memory.below n' m = true := by
  simp only [Memory.below, List.all_eq_true, decide_eq_true_eq] at h ⊢
  intro c hc
  exact Nat.lt_of_lt_of_le (h c hc) hn

theorem below_memWrite {m : Memory} {n a : Nat} {bs : List Byte} (h : Memory.below n m = true) (ha : a + bs.length ≤ n) :
    Memory.below n (memWrite m a bs) = true := by
  induction bs generalizing m a with
  | nil => exact h
  | cons b bs ih =>
    rw [List.length_cons] at ha
    exact ih (below_write h (by omega)) (by omega)

end Sys2Proof.Machine
end

