-- ==== Sys2Proof/Laws/PerInstr.lean ====
section
/-! SUPPORT. Statements about every command as syntax, one lemma per constructor. -/

namespace Sys2Proof.Laws.CommandWord

/-- A command is well formed and is one byte, the opcode, which is not 0x00: "0x00 is illegal on purpose, so that a write of zero
starts nothing" (R90, R93). -/
def Statement (i : Instr) : Prop :=
  i.wellFormed = true ∧ encode i = [i.opcode] ∧ i.opcode ≠ 0x00 ∧ decodeTableWord 8 i.opcode.toNat = some i

theorem genkey : Statement .genkey := by
  unfold Statement; decide

theorem encrypt : Statement .encrypt := by
  unfold Statement; decide

theorem decrypt : Statement .decrypt := by
  unfold Statement; decide

theorem clear : Statement .clear := by
  unfold Statement; decide

end Sys2Proof.Laws.CommandWord
end

