-- ==== Sys2Proof/Laws/State.lean ====
section
/-! SUPPORT. What each named update of the state leaves in each field: one lemma per field per update, true by definition, so that
no later proof unfolds a record update. -/

namespace Sys2Proof.Machine

/-! ### clearFlags -/

@[simp] theorem clearFlags_ptMax (s : State) : (clearFlags s).ptMax = s.ptMax := rfl
@[simp] theorem clearFlags_key (s : State) : (clearFlags s).key = s.key := rfl
@[simp] theorem clearFlags_keyValid (s : State) : (clearFlags s).keyValid = s.keyValid := rfl
@[simp] theorem clearFlags_phase (s : State) : (clearFlags s).phase = s.phase := rfl
@[simp] theorem clearFlags_done (s : State) : (clearFlags s).done = false := rfl
@[simp] theorem clearFlags_error (s : State) : (clearFlags s).error = false := rfl
@[simp] theorem clearFlags_err (s : State) : (clearFlags s).err = 0x00 := rfl
@[simp] theorem clearFlags_ilen (s : State) : (clearFlags s).ilen = s.ilen := rfl
@[simp] theorem clearFlags_ibuf (s : State) : (clearFlags s).ibuf = s.ibuf := rfl
@[simp] theorem clearFlags_olen (s : State) : (clearFlags s).olen = s.olen := rfl
@[simp] theorem clearFlags_obuf (s : State) : (clearFlags s).obuf = s.obuf := rfl
@[simp] theorem clearFlags_cmdl (s : State) : (clearFlags s).cmdl = s.cmdl := rfl
@[simp] theorem clearFlags_work (s : State) : (clearFlags s).work = s.work := rfl
@[simp] theorem clearFlags_env (s : State) : (clearFlags s).env = s.env := rfl

/-! ### setFailure -/

@[simp] theorem setFailure_ptMax (e : Failure) (s : State) : (setFailure e s).ptMax = s.ptMax := rfl
@[simp] theorem setFailure_key (e : Failure) (s : State) : (setFailure e s).key = s.key := rfl
@[simp] theorem setFailure_keyValid (e : Failure) (s : State) : (setFailure e s).keyValid = s.keyValid := rfl
@[simp] theorem setFailure_phase (e : Failure) (s : State) : (setFailure e s).phase = s.phase := rfl
@[simp] theorem setFailure_done (e : Failure) (s : State) : (setFailure e s).done = s.done := rfl
@[simp] theorem setFailure_error (e : Failure) (s : State) : (setFailure e s).error = true := rfl
@[simp] theorem setFailure_err (e : Failure) (s : State) : (setFailure e s).err = e.code := rfl
@[simp] theorem setFailure_ilen (e : Failure) (s : State) : (setFailure e s).ilen = s.ilen := rfl
@[simp] theorem setFailure_ibuf (e : Failure) (s : State) : (setFailure e s).ibuf = s.ibuf := rfl
@[simp] theorem setFailure_olen (e : Failure) (s : State) : (setFailure e s).olen = s.olen := rfl
@[simp] theorem setFailure_obuf (e : Failure) (s : State) : (setFailure e s).obuf = s.obuf := rfl
@[simp] theorem setFailure_cmdl (e : Failure) (s : State) : (setFailure e s).cmdl = s.cmdl := rfl
@[simp] theorem setFailure_work (e : Failure) (s : State) : (setFailure e s).work = s.work := rfl
@[simp] theorem setFailure_env (e : Failure) (s : State) : (setFailure e s).env = s.env := rfl

/-! ### setDone -/

@[simp] theorem setDone_ptMax (s : State) : (setDone s).ptMax = s.ptMax := rfl
@[simp] theorem setDone_key (s : State) : (setDone s).key = s.key := rfl
@[simp] theorem setDone_keyValid (s : State) : (setDone s).keyValid = s.keyValid := rfl
@[simp] theorem setDone_phase (s : State) : (setDone s).phase = s.phase := rfl
@[simp] theorem setDone_done (s : State) : (setDone s).done = true := rfl
@[simp] theorem setDone_error (s : State) : (setDone s).error = s.error := rfl
@[simp] theorem setDone_err (s : State) : (setDone s).err = s.err := rfl
@[simp] theorem setDone_ilen (s : State) : (setDone s).ilen = s.ilen := rfl
@[simp] theorem setDone_ibuf (s : State) : (setDone s).ibuf = s.ibuf := rfl
@[simp] theorem setDone_olen (s : State) : (setDone s).olen = s.olen := rfl
@[simp] theorem setDone_obuf (s : State) : (setDone s).obuf = s.obuf := rfl
@[simp] theorem setDone_cmdl (s : State) : (setDone s).cmdl = s.cmdl := rfl
@[simp] theorem setDone_work (s : State) : (setDone s).work = s.work := rfl
@[simp] theorem setDone_env (s : State) : (setDone s).env = s.env := rfl

/-! ### zeroise -/

@[simp] theorem zeroise_ptMax (s : State) : (zeroise s).ptMax = s.ptMax := rfl
@[simp] theorem zeroise_key (s : State) : (zeroise s).key = s.key := rfl
@[simp] theorem zeroise_keyValid (s : State) : (zeroise s).keyValid = s.keyValid := rfl
@[simp] theorem zeroise_phase (s : State) : (zeroise s).phase = s.phase := rfl
@[simp] theorem zeroise_done (s : State) : (zeroise s).done = s.done := rfl
@[simp] theorem zeroise_error (s : State) : (zeroise s).error = s.error := rfl
@[simp] theorem zeroise_err (s : State) : (zeroise s).err = s.err := rfl
@[simp] theorem zeroise_ilen (s : State) : (zeroise s).ilen = s.ilen := rfl
@[simp] theorem zeroise_ibuf (s : State) : (zeroise s).ibuf = s.ibuf := rfl
@[simp] theorem zeroise_olen (s : State) : (zeroise s).olen = s.olen := rfl
@[simp] theorem zeroise_obuf (s : State) : (zeroise s).obuf = s.obuf := rfl
@[simp] theorem zeroise_cmdl (s : State) : (zeroise s).cmdl = 0x00 := rfl
@[simp] theorem zeroise_work (s : State) : (zeroise s).work = zeroWork := rfl
@[simp] theorem zeroise_env (s : State) : (zeroise s).env = s.env := rfl

/-! ### clearOutput -/

@[simp] theorem clearOutput_ptMax (s : State) : (clearOutput s).ptMax = s.ptMax := rfl
@[simp] theorem clearOutput_key (s : State) : (clearOutput s).key = s.key := rfl
@[simp] theorem clearOutput_keyValid (s : State) : (clearOutput s).keyValid = s.keyValid := rfl
@[simp] theorem clearOutput_phase (s : State) : (clearOutput s).phase = s.phase := rfl
@[simp] theorem clearOutput_done (s : State) : (clearOutput s).done = s.done := rfl
@[simp] theorem clearOutput_error (s : State) : (clearOutput s).error = s.error := rfl
@[simp] theorem clearOutput_err (s : State) : (clearOutput s).err = s.err := rfl
@[simp] theorem clearOutput_ilen (s : State) : (clearOutput s).ilen = s.ilen := rfl
@[simp] theorem clearOutput_ibuf (s : State) : (clearOutput s).ibuf = s.ibuf := rfl
@[simp] theorem clearOutput_olen (s : State) : (clearOutput s).olen = 0 := rfl
@[simp] theorem clearOutput_obuf (s : State) : (clearOutput s).obuf = [] := rfl
@[simp] theorem clearOutput_cmdl (s : State) : (clearOutput s).cmdl = s.cmdl := rfl
@[simp] theorem clearOutput_work (s : State) : (clearOutput s).work = s.work := rfl
@[simp] theorem clearOutput_env (s : State) : (clearOutput s).env = s.env := rfl

/-! ### raise -/

@[simp] theorem raise_ptMax (e : Failure) (s : State) : (raise e s).ptMax = s.ptMax := rfl
@[simp] theorem raise_key (e : Failure) (s : State) : (raise e s).key = s.key := rfl
@[simp] theorem raise_keyValid (e : Failure) (s : State) : (raise e s).keyValid = s.keyValid := rfl
@[simp] theorem raise_phase (e : Failure) (s : State) : (raise e s).phase = e.endPhase := rfl
@[simp] theorem raise_done (e : Failure) (s : State) : (raise e s).done = s.done := rfl
@[simp] theorem raise_error (e : Failure) (s : State) : (raise e s).error = true := rfl
@[simp] theorem raise_err (e : Failure) (s : State) : (raise e s).err = e.code := rfl
@[simp] theorem raise_ilen (e : Failure) (s : State) : (raise e s).ilen = s.ilen := rfl
@[simp] theorem raise_ibuf (e : Failure) (s : State) : (raise e s).ibuf = s.ibuf := rfl
@[simp] theorem raise_olen (e : Failure) (s : State) : (raise e s).olen = 0 := rfl
@[simp] theorem raise_obuf (e : Failure) (s : State) : (raise e s).obuf = [] := rfl
@[simp] theorem raise_cmdl (e : Failure) (s : State) : (raise e s).cmdl = 0x00 := rfl
@[simp] theorem raise_work (e : Failure) (s : State) : (raise e s).work = zeroWork := rfl
@[simp] theorem raise_env (e : Failure) (s : State) : (raise e s).env = s.env := rfl

/-! ### complete -/

@[simp] theorem complete_ptMax (s : State) : (complete s).ptMax = s.ptMax := rfl
@[simp] theorem complete_key (s : State) : (complete s).key = s.key := rfl
@[simp] theorem complete_keyValid (s : State) : (complete s).keyValid = s.keyValid := rfl
@[simp] theorem complete_phase (s : State) : (complete s).phase = .idle := rfl
@[simp] theorem complete_done (s : State) : (complete s).done = true := rfl
@[simp] theorem complete_error (s : State) : (complete s).error = s.error := rfl
@[simp] theorem complete_err (s : State) : (complete s).err = s.err := rfl
@[simp] theorem complete_ilen (s : State) : (complete s).ilen = s.ilen := rfl
@[simp] theorem complete_ibuf (s : State) : (complete s).ibuf = s.ibuf := rfl
@[simp] theorem complete_olen (s : State) : (complete s).olen = s.olen := rfl
@[simp] theorem complete_obuf (s : State) : (complete s).obuf = s.obuf := rfl
@[simp] theorem complete_cmdl (s : State) : (complete s).cmdl = 0x00 := rfl
@[simp] theorem complete_work (s : State) : (complete s).work = zeroWork := rfl
@[simp] theorem complete_env (s : State) : (complete s).env = s.env := rfl

/-! ### latch -/

@[simp] theorem latch_ptMax (v : Byte) (s : State) : (latch v s).ptMax = s.ptMax := rfl
@[simp] theorem latch_key (v : Byte) (s : State) : (latch v s).key = s.key := rfl
@[simp] theorem latch_keyValid (v : Byte) (s : State) : (latch v s).keyValid = s.keyValid := rfl
@[simp] theorem latch_phase (v : Byte) (s : State) : (latch v s).phase = .busy := rfl
@[simp] theorem latch_done (v : Byte) (s : State) : (latch v s).done = s.done := rfl
@[simp] theorem latch_error (v : Byte) (s : State) : (latch v s).error = s.error := rfl
@[simp] theorem latch_err (v : Byte) (s : State) : (latch v s).err = s.err := rfl
@[simp] theorem latch_ilen (v : Byte) (s : State) : (latch v s).ilen = s.ilen := rfl
@[simp] theorem latch_ibuf (v : Byte) (s : State) : (latch v s).ibuf = s.ibuf := rfl
@[simp] theorem latch_olen (v : Byte) (s : State) : (latch v s).olen = s.olen := rfl
@[simp] theorem latch_obuf (v : Byte) (s : State) : (latch v s).obuf = s.obuf := rfl
@[simp] theorem latch_cmdl (v : Byte) (s : State) : (latch v s).cmdl = v := rfl
@[simp] theorem latch_work (v : Byte) (s : State) : (latch v s).work = s.work := rfl
@[simp] theorem latch_env (v : Byte) (s : State) : (latch v s).env = s.env := rfl

/-! ### reply -/

@[simp] theorem reply_ptMax (v : CsrValue) (s : State) : (reply v s).ptMax = s.ptMax := rfl
@[simp] theorem reply_key (v : CsrValue) (s : State) : (reply v s).key = s.key := rfl
@[simp] theorem reply_keyValid (v : CsrValue) (s : State) : (reply v s).keyValid = s.keyValid := rfl
@[simp] theorem reply_phase (v : CsrValue) (s : State) : (reply v s).phase = s.phase := rfl
@[simp] theorem reply_done (v : CsrValue) (s : State) : (reply v s).done = s.done := rfl
@[simp] theorem reply_error (v : CsrValue) (s : State) : (reply v s).error = s.error := rfl
@[simp] theorem reply_err (v : CsrValue) (s : State) : (reply v s).err = s.err := rfl
@[simp] theorem reply_ilen (v : CsrValue) (s : State) : (reply v s).ilen = s.ilen := rfl
@[simp] theorem reply_ibuf (v : CsrValue) (s : State) : (reply v s).ibuf = s.ibuf := rfl
@[simp] theorem reply_olen (v : CsrValue) (s : State) : (reply v s).olen = s.olen := rfl
@[simp] theorem reply_obuf (v : CsrValue) (s : State) : (reply v s).obuf = s.obuf := rfl
@[simp] theorem reply_cmdl (v : CsrValue) (s : State) : (reply v s).cmdl = s.cmdl := rfl
@[simp] theorem reply_work (v : CsrValue) (s : State) : (reply v s).work = s.work := rfl
@[simp] theorem reply_env (v : CsrValue) (s : State) : (reply v s).env = { s.env with replies := v :: s.env.replies } := rfl

/-! ### afterDraw -/

@[simp] theorem afterDraw_ptMax (s : State) : (afterDraw s).ptMax = s.ptMax := rfl
@[simp] theorem afterDraw_key (s : State) : (afterDraw s).key = s.key := rfl
@[simp] theorem afterDraw_keyValid (s : State) : (afterDraw s).keyValid = s.keyValid := rfl
@[simp] theorem afterDraw_phase (s : State) : (afterDraw s).phase = s.phase := rfl
@[simp] theorem afterDraw_done (s : State) : (afterDraw s).done = s.done := rfl
@[simp] theorem afterDraw_error (s : State) : (afterDraw s).error = s.error := rfl
@[simp] theorem afterDraw_err (s : State) : (afterDraw s).err = s.err := rfl
@[simp] theorem afterDraw_ilen (s : State) : (afterDraw s).ilen = s.ilen := rfl
@[simp] theorem afterDraw_ibuf (s : State) : (afterDraw s).ibuf = s.ibuf := rfl
@[simp] theorem afterDraw_olen (s : State) : (afterDraw s).olen = s.olen := rfl
@[simp] theorem afterDraw_obuf (s : State) : (afterDraw s).obuf = s.obuf := rfl
@[simp] theorem afterDraw_cmdl (s : State) : (afterDraw s).cmdl = s.cmdl := rfl
@[simp] theorem afterDraw_work (s : State) : (afterDraw s).work = s.work := rfl
@[simp] theorem afterDraw_env (s : State) : (afterDraw s).env = { s.env with rng := none, drawn := s.env.drawn + 1 } := rfl

/-! ### afterNoDraw -/

@[simp] theorem afterNoDraw_ptMax (s : State) : (afterNoDraw s).ptMax = s.ptMax := rfl
@[simp] theorem afterNoDraw_key (s : State) : (afterNoDraw s).key = s.key := rfl
@[simp] theorem afterNoDraw_keyValid (s : State) : (afterNoDraw s).keyValid = s.keyValid := rfl
@[simp] theorem afterNoDraw_phase (s : State) : (afterNoDraw s).phase = s.phase := rfl
@[simp] theorem afterNoDraw_done (s : State) : (afterNoDraw s).done = s.done := rfl
@[simp] theorem afterNoDraw_error (s : State) : (afterNoDraw s).error = s.error := rfl
@[simp] theorem afterNoDraw_err (s : State) : (afterNoDraw s).err = s.err := rfl
@[simp] theorem afterNoDraw_ilen (s : State) : (afterNoDraw s).ilen = s.ilen := rfl
@[simp] theorem afterNoDraw_ibuf (s : State) : (afterNoDraw s).ibuf = s.ibuf := rfl
@[simp] theorem afterNoDraw_olen (s : State) : (afterNoDraw s).olen = s.olen := rfl
@[simp] theorem afterNoDraw_obuf (s : State) : (afterNoDraw s).obuf = s.obuf := rfl
@[simp] theorem afterNoDraw_cmdl (s : State) : (afterNoDraw s).cmdl = s.cmdl := rfl
@[simp] theorem afterNoDraw_work (s : State) : (afterNoDraw s).work = s.work := rfl
@[simp] theorem afterNoDraw_env (s : State) : (afterNoDraw s).env = { s.env with rng := none } := rfl

/-! ### withScript -/

@[simp] theorem withScript_ptMax (ls : List Line) (s : State) : (withScript ls s).ptMax = s.ptMax := rfl
@[simp] theorem withScript_key (ls : List Line) (s : State) : (withScript ls s).key = s.key := rfl
@[simp] theorem withScript_keyValid (ls : List Line) (s : State) : (withScript ls s).keyValid = s.keyValid := rfl
@[simp] theorem withScript_phase (ls : List Line) (s : State) : (withScript ls s).phase = s.phase := rfl
@[simp] theorem withScript_done (ls : List Line) (s : State) : (withScript ls s).done = s.done := rfl
@[simp] theorem withScript_error (ls : List Line) (s : State) : (withScript ls s).error = s.error := rfl
@[simp] theorem withScript_err (ls : List Line) (s : State) : (withScript ls s).err = s.err := rfl
@[simp] theorem withScript_ilen (ls : List Line) (s : State) : (withScript ls s).ilen = s.ilen := rfl
@[simp] theorem withScript_ibuf (ls : List Line) (s : State) : (withScript ls s).ibuf = s.ibuf := rfl
@[simp] theorem withScript_olen (ls : List Line) (s : State) : (withScript ls s).olen = s.olen := rfl
@[simp] theorem withScript_obuf (ls : List Line) (s : State) : (withScript ls s).obuf = s.obuf := rfl
@[simp] theorem withScript_cmdl (ls : List Line) (s : State) : (withScript ls s).cmdl = s.cmdl := rfl
@[simp] theorem withScript_work (ls : List Line) (s : State) : (withScript ls s).work = s.work := rfl
@[simp] theorem withScript_env (ls : List Line) (s : State) : (withScript ls s).env = { s.env with script := ls } := rfl

/-! ### fixDraw -/

@[simp] theorem fixDraw_ptMax (a : RngAnswer) (s : State) : (fixDraw a s).ptMax = s.ptMax := rfl
@[simp] theorem fixDraw_key (a : RngAnswer) (s : State) : (fixDraw a s).key = s.key := rfl
@[simp] theorem fixDraw_keyValid (a : RngAnswer) (s : State) : (fixDraw a s).keyValid = s.keyValid := rfl
@[simp] theorem fixDraw_phase (a : RngAnswer) (s : State) : (fixDraw a s).phase = s.phase := rfl
@[simp] theorem fixDraw_done (a : RngAnswer) (s : State) : (fixDraw a s).done = s.done := rfl
@[simp] theorem fixDraw_error (a : RngAnswer) (s : State) : (fixDraw a s).error = s.error := rfl
@[simp] theorem fixDraw_err (a : RngAnswer) (s : State) : (fixDraw a s).err = s.err := rfl
@[simp] theorem fixDraw_ilen (a : RngAnswer) (s : State) : (fixDraw a s).ilen = s.ilen := rfl
@[simp] theorem fixDraw_ibuf (a : RngAnswer) (s : State) : (fixDraw a s).ibuf = s.ibuf := rfl
@[simp] theorem fixDraw_olen (a : RngAnswer) (s : State) : (fixDraw a s).olen = s.olen := rfl
@[simp] theorem fixDraw_obuf (a : RngAnswer) (s : State) : (fixDraw a s).obuf = s.obuf := rfl
@[simp] theorem fixDraw_cmdl (a : RngAnswer) (s : State) : (fixDraw a s).cmdl = s.cmdl := rfl
@[simp] theorem fixDraw_work (a : RngAnswer) (s : State) : (fixDraw a s).work = s.work := rfl
@[simp] theorem fixDraw_env (a : RngAnswer) (s : State) : (fixDraw a s).env = { s.env with rng := some a } := rfl

/-! ### hardReset -/

@[simp] theorem hardReset_ptMax (s : State) : (hardReset s).ptMax = s.ptMax := rfl
@[simp] theorem hardReset_key (s : State) : (hardReset s).key = zeroBlock := rfl
@[simp] theorem hardReset_keyValid (s : State) : (hardReset s).keyValid = false := rfl
@[simp] theorem hardReset_phase (s : State) : (hardReset s).phase = .idle := rfl
@[simp] theorem hardReset_done (s : State) : (hardReset s).done = false := rfl
@[simp] theorem hardReset_error (s : State) : (hardReset s).error = false := rfl
@[simp] theorem hardReset_err (s : State) : (hardReset s).err = 0x00 := rfl
@[simp] theorem hardReset_ilen (s : State) : (hardReset s).ilen = 0 := rfl
@[simp] theorem hardReset_ibuf (s : State) : (hardReset s).ibuf = [] := rfl
@[simp] theorem hardReset_olen (s : State) : (hardReset s).olen = 0 := rfl
@[simp] theorem hardReset_obuf (s : State) : (hardReset s).obuf = [] := rfl
@[simp] theorem hardReset_cmdl (s : State) : (hardReset s).cmdl = 0x00 := rfl
@[simp] theorem hardReset_work (s : State) : (hardReset s).work = zeroWork := rfl
@[simp] theorem hardReset_env (s : State) : (hardReset s).env = s.env := rfl

end Sys2Proof.Machine
end

