-- ==== Sys2Proof/Laws/Step.lean ====
section
/-! SUPPORT. Everything a shared operation can do, said once: the decoder on a byte, the checks of accept, the four commands, the
SEQ step, a transaction, a step. Proofs about steps cite these and unfold nothing. -/

namespace Sys2Proof.Machine

/-! ### The decoder and the checks -/

/-- The decoder on a byte, case by case (R91, R93). -/
theorem decodeByte_eq (v : Byte) : decodeByte v =
    if v = 0x01 then .ok .genkey else if v = 0x02 then .ok .encrypt else if v = 0x03 then .ok .decrypt
    else if v = 0x04 then .ok .clear else .error (.illegalOpcode v) := by
  have m : v &&& 0xFF = v := by
    refine BitVec.eq_of_toNat_eq ?_
    rw [BitVec.toNat_and, show (0xFF : Byte).toNat = 2 ^ 8 - 1 from rfl, Nat.and_two_pow_sub_one_eq_mod]
    exact Nat.mod_eq_of_lt v.isLt
  rw [decodeByte, opcodeMap]
  simp only [List.find?_cons, List.find?_nil, m]
  by_cases h1 : v = 0x01
  · rw [h1]; rfl
  · rw [if_neg h1, beq_eq_false_iff_ne.2 h1]
    by_cases h2 : v = 0x02
    · rw [h2]; rfl
    · rw [if_neg h2, beq_eq_false_iff_ne.2 h2]
      by_cases h3 : v = 0x03
      · rw [h3]; rfl
      · rw [if_neg h3, beq_eq_false_iff_ne.2 h3]
        by_cases h4 : v = 0x04
        · rw [h4]; rfl
        · rw [if_neg h4, beq_eq_false_iff_ne.2 h4]

/-- The checks of accept, case by case in their order (R251). -/
theorem check_eq (v : Byte) (s : State) : check v s =
    if v = 0x01 then none
    else if v = 0x02 then
      (if s.keyValid = false then some .noKey else if s.ptMax.val < s.ilen then some .lengthRange else none)
    else if v = 0x03 then
      (if s.keyValid = false then some .noKey else if bufCap s.ptMax < s.ilen then some .lengthRange else none)
    else if v = 0x04 then none else some .illegalCommand := by
  rw [check, decodeByte_eq]
  by_cases h1 : v = 0x01
  · rw [if_pos h1, if_pos h1]
  · rw [if_neg h1, if_neg h1]
    by_cases h2 : v = 0x02
    · rw [if_pos h2, if_pos h2]; cases s.keyValid <;> rfl
    · rw [if_neg h2, if_neg h2]
      by_cases h3 : v = 0x03
      · rw [if_pos h3, if_pos h3]; cases s.keyValid <;> rfl
      · rw [if_neg h3, if_neg h3]
        by_cases h4 : v = 0x04
        · rw [if_pos h4, if_pos h4]
        · rw [if_neg h4, if_neg h4]

/-- The checks look at PT_MAX, KEY_VALID and ILEN only. -/
theorem check_congr {v : Byte} {s t : State} (hp : s.ptMax = t.ptMax) (hk : s.keyValid = t.keyValid)
    (hi : s.ilen = t.ilen) : check v s = check v t := by rw [check_eq, check_eq, hp, hk, hi]

@[simp] theorem check_withScript (v : Byte) (ls : List Line) (s : State) : check v (withScript ls s) = check v s :=
  check_congr rfl rfl rfl

/-- No check yields the fatal failure (R264). -/
theorem check_ne_fatal {v : Byte} {s : State} {e : Failure} (h : check v s = some e) :
    e = .illegalCommand ∨ e = .noKey ∨ e = .lengthRange := by
  rw [check_eq] at h
  repeat' split at h
  all_goals first | cases h; done | (cases h; simp)

/-- Accept either ends the command by a protocol error or latches it (R250). -/
theorem accept_cases (v : Byte) (s : State) :
    (∃ e, check v s = some e ∧ accept v s = raise e (clearOutput (clearFlags s))) ∨
    (check v s = none ∧ accept v s = latch v (clearOutput (clearFlags s))) := by
  rw [accept]
  cases check v s with
  | some e => exact .inl ⟨e, rfl, rfl⟩
  | none => exact .inr ⟨rfl, rfl⟩

/-! ### The commands -/

@[simp] theorem exec_genkey (s : State) : exec .genkey s = .next (genkeyEnd s) := rfl
@[simp] theorem exec_encrypt (s : State) : exec .encrypt s = .next (encryptEnd s) := rfl
@[simp] theorem exec_decrypt (s : State) : exec .decrypt s = .next (decryptEnd s) := rfl
@[simp] theorem exec_clear (s : State) : exec .clear s = .next (clearEnd s) := rfl

/-- GENKEY ends with the drawn key, or its draw is never answered (R195, R196). -/
theorem genkeyEnd_cases (s : State) :
    (∃ idx, drawIndexes s = some idx ∧
      genkeyEnd s = complete { afterDraw s with key := keyOfIndexes idx, keyValid := true }) ∨
    (drawIndexes s = none ∧ genkeyEnd s = raise .entropyFatal (afterDraw s)) := by
  rw [genkeyEnd]
  cases drawIndexes s with
  | some idx => exact .inl ⟨idx, rfl, rfl⟩
  | none => exact .inr ⟨rfl, rfl⟩

/-- ENCRYPT ends with its blob in OBUF, or its draw is never answered (R196, R210). -/
theorem encryptEnd_cases (s : State) :
    (∃ iv, drawBytes s = some iv ∧ encryptEnd s = complete { afterDraw s with
      obuf := memWrite s.obuf 0 (encryptBlob s.key (memRead s.ibuf 0 s.ilen) iv),
      olen := (encryptBlob s.key (memRead s.ibuf 0 s.ilen) iv).length }) ∨
    (drawBytes s = none ∧ encryptEnd s = raise .entropyFatal (afterDraw s)) := by
  rw [encryptEnd]
  cases drawBytes s with
  | some iv => exact .inl ⟨iv, rfl, rfl⟩
  | none => exact .inr ⟨rfl, rfl⟩

/-- DECRYPT ends with its plaintext in OBUF, or with the failure of the first step that fails (R230). -/
theorem decryptEnd_cases (s : State) :
    (∃ p, decryptBlob s.key (memRead s.ibuf 0 s.ilen) = .ok p ∧ decryptEnd s = complete { afterNoDraw s with
      obuf := memWrite s.obuf 0 p, olen := p.length }) ∨
    (∃ e, decryptBlob s.key (memRead s.ibuf 0 s.ilen) = .error e ∧ decryptEnd s = raise e (afterNoDraw s)) := by
  rw [decryptEnd]
  cases decryptBlob s.key (memRead s.ibuf 0 s.ilen) with
  | ok p => exact .inl ⟨p, rfl, rfl⟩
  | error e => exact .inr ⟨e, rfl, rfl⟩

/-- The failures DECRYPT can end with (R230). -/
theorem decryptBlob_failures {k : Block} {b : List Byte} {e : Failure} (h : decryptBlob k b = .error e) :
    e = .malformedBlob ∨ e = .decryptionFailed ∨ e = .integrityMismatch := by
  rw [decryptBlob] at h
  repeat' split at h
  all_goals first | cases h; done | (cases h; simp)

/-- What is asked of the answer to a draw depends on `env` only. -/
theorem drawBytes_congr {s t : State} (h : s.env = t.env) : drawBytes s = drawBytes t := by rw [drawBytes, drawBytes, h]

theorem drawIndexes_congr {s t : State} (h : s.env = t.env) : drawIndexes s = drawIndexes t := by
  rw [drawIndexes, drawIndexes, h]

/-! ### The SEQ step, a transaction, a step -/

/-- The SEQ step carries out one of the four commands, or CMDL holds none (R252). -/
theorem seqStep_cases (s : State) :
    (s.cmdl = 0x01 ∧ seqStep s = .next (genkeyEnd s)) ∨ (s.cmdl = 0x02 ∧ seqStep s = .next (encryptEnd s)) ∨
    (s.cmdl = 0x03 ∧ seqStep s = .next (decryptEnd s)) ∨ (s.cmdl = 0x04 ∧ seqStep s = .next (clearEnd s)) ∨
    (s.cmdl ≠ 0x01 ∧ s.cmdl ≠ 0x02 ∧ s.cmdl ≠ 0x03 ∧ s.cmdl ≠ 0x04 ∧ seqStep s = .fault .illegalLatch) := by
  have d := decodeByte_eq s.cmdl
  by_cases h1 : s.cmdl = 0x01
  · rw [if_pos h1] at d
    exact .inl ⟨h1, by rw [seqStep, decode, d]; rfl⟩
  · rw [if_neg h1] at d
    by_cases h2 : s.cmdl = 0x02
    · rw [if_pos h2] at d
      exact .inr (.inl ⟨h2, by rw [seqStep, decode, d]; rfl⟩)
    · rw [if_neg h2] at d
      by_cases h3 : s.cmdl = 0x03
      · rw [if_pos h3] at d
        exact .inr (.inr (.inl ⟨h3, by rw [seqStep, decode, d]; rfl⟩))
      · rw [if_neg h3] at d
        by_cases h4 : s.cmdl = 0x04
        · rw [if_pos h4] at d
          exact .inr (.inr (.inr (.inl ⟨h4, by rw [seqStep, decode, d]; rfl⟩)))
        · rw [if_neg h4] at d
          exact .inr (.inr (.inr (.inr ⟨h1, h2, h3, h4, by rw [seqStep, decode, d]⟩)))

/-- A SEQ step that answers a next state carries out one of the four commands. -/
theorem seqStep_next {s t : State} (h : seqStep s = .next t) :
    (s.cmdl = 0x01 ∧ t = genkeyEnd s) ∨ (s.cmdl = 0x02 ∧ t = encryptEnd s) ∨ (s.cmdl = 0x03 ∧ t = decryptEnd s) ∨
    (s.cmdl = 0x04 ∧ t = clearEnd s) := by
  rcases seqStep_cases s with ⟨c, e⟩ | ⟨c, e⟩ | ⟨c, e⟩ | ⟨c, e⟩ | ⟨-, -, -, -, e⟩ <;> rw [e] at h <;> cases h
  · exact .inl ⟨c, rfl⟩
  · exact .inr (.inl ⟨c, rfl⟩)
  · exact .inr (.inr (.inl ⟨c, rfl⟩))
  · exact .inr (.inr (.inr ⟨c, rfl⟩))

/-- A write that is not taken changes nothing (R65). -/
theorem csrWrite_of_not_idle {n : Nat} {v : CsrValue} {s : State} (h : s.phase ≠ .idle) : csrWrite n v s = s := by
  rw [csrWrite, if_neg h]

theorem ibufWrite_of_not_idle {i : Nat} {b : Byte} {s : State} (h : s.phase ≠ .idle) : ibufWrite i b s = s := by
  rw [ibufWrite, if_neg fun c => h c.1]

/-- What a write to a register can do (R62). -/
theorem csrWrite_cases (n : Nat) (v : CsrValue) (s : State) :
    (s.phase = .idle ∧ n = 0x00 ∧ ∃ b, v = .byte b ∧ csrWrite n v s = accept b s) ∨
    (s.phase = .idle ∧ n = 0x03 ∧ ∃ l, v = .len l ∧ csrWrite n v s = { s with ilen := l }) ∨
    (s.phase = .idle ∧ n = 0x05 ∧ ∃ k, v = .key k ∧ csrWrite n v s = { s with key := k, keyValid := true }) ∨
    csrWrite n v s = s := by
  rw [csrWrite]
  split
  · rename_i hp
    rw [csrWriteIdle.eq_def]
    split
    · exact .inl ⟨hp, rfl, _, rfl, rfl⟩
    · exact .inr (.inl ⟨hp, rfl, _, rfl, rfl⟩)
    · exact .inr (.inr (.inl ⟨hp, rfl, _, rfl, rfl⟩))
    · exact .inr (.inr (.inr rfl))
  · exact .inr (.inr (.inr rfl))

/-- What a write to IBUF can do (R63). -/
theorem ibufWrite_cases (i : Nat) (b : Byte) (s : State) :
    (s.phase = .idle ∧ i < bufCap s.ptMax ∧ ibufWrite i b s = { s with ibuf := Memory.write s.ibuf i b }) ∨
    (¬(s.phase = .idle ∧ i < bufCap s.ptMax) ∧ ibufWrite i b s = s) := by
  rw [ibufWrite]
  split
  · exact .inl ⟨‹_ ∧ _›.1, ‹_ ∧ _›.2, rfl⟩
  · exact .inr ⟨‹_›, rfl⟩

theorem step_of_nil {s : State} (h : s.env.script = []) : step s = runUnscripted s := by rw [step, h]

theorem step_of_cons {s : State} {l : Line} {ls : List Line} (h : s.env.script = l :: ls) :
    step s = runLine l (withScript ls s) := by rw [step, h]

/-! One lemma per line of a script: what the step that takes it is. -/

theorem runLine_of_wellFormed {l : Line} {s : State} (h : l.wellFormed s.ptMax = true) : runLine l s = takeLine l s := by
  rw [runLine, if_pos h]

theorem step_csrWrite {s : State} {n : Nat} {v : CsrValue} {ls : List Line} (h : s.env.script = .csrWrite n v :: ls)
    (hw : v.hasWidthOf s.ptMax n = true) : step s = .next (csrWrite n v (withScript ls s)) := by
  rw [step_of_cons h, runLine_of_wellFormed (by exact hw), takeLine]

theorem step_cmdWrite {s : State} {b : Byte} {ls : List Line} (h : s.env.script = .csrWrite 0x00 (.byte b) :: ls)
    (hp : s.phase = .idle) : step s = .next (accept b (withScript ls s)) := by
  rw [step_csrWrite h rfl, csrWrite, if_pos (by exact hp)]
  rfl

theorem step_csrRead {s : State} {n : Nat} {ls : List Line} (h : s.env.script = .csrRead n :: ls) :
    step s = .next (reply (csrReadValue n s) (withScript ls s)) := by
  rw [step_of_cons h]
  rfl

theorem step_ibufWrite {s : State} {i : Nat} {b : Byte} {ls : List Line} (h : s.env.script = .ibufWrite i b :: ls) :
    step s = .next (ibufWrite i b (withScript ls s)) := by
  rw [step_of_cons h]
  rfl

theorem step_obufRead {s : State} {i : Nat} {ls : List Line} (h : s.env.script = .obufRead i :: ls) :
    step s = .next (reply (.byte (obufReadValue i s)) (withScript ls s)) := by
  rw [step_of_cons h]
  rfl

theorem step_rng {s : State} {a : RngAnswer} {ls : List Line} (h : s.env.script = .rng a :: ls) :
    step s = .next (fixDraw a (withScript ls s)) := by
  rw [step_of_cons h]
  rfl

theorem step_reset {s : State} {ls : List Line} (h : s.env.script = .reset :: ls) :
    step s = .next (hardReset (withScript ls s)) := by
  rw [step_of_cons h]
  rfl

theorem step_seq {s : State} {ls : List Line} (h : s.env.script = .seq :: ls) (hp : s.phase = .busy) :
    step s = seqStep (withScript ls s) := by
  rw [step_of_cons h, runLine_of_wellFormed rfl]
  exact if_pos hp

theorem step_seq_refused {s : State} {ls : List Line} (h : s.env.script = .seq :: ls) (hp : s.phase ≠ .busy) :
    step s = .refused .sequencerNotEnabled := by
  rw [step_of_cons h, runLine_of_wellFormed rfl]
  exact if_neg hp

theorem step_unscripted_busy {s : State} (h : s.env.script = []) (hp : s.phase = .busy) : step s = seqStep s := by
  rw [step_of_nil h, runUnscripted, hp]

/-- The SEQ step by the command that CMDL decodes to (R252). -/
theorem seqStep_of_decode {s : State} {i : Instr} {rest : List Byte} (h : decode [s.cmdl] = .ok (i, rest)) :
    seqStep s = exec i s := by rw [seqStep, h]

/-- The SEQ step by the opcode in CMDL (R91, R252). -/
theorem seqStep_of_opcode {s : State} {i : Instr} (h : s.cmdl = i.opcode) : seqStep s = exec i s := by
  refine seqStep_of_decode (rest := []) ?_
  rw [h]
  cases i <;> rfl

/-- Everything a step that answers a next state can have been. -/
theorem step_cases {s t : State} (h : step s = .next t) :
    (s.env.script = [] ∧ s.phase = .busy ∧ seqStep s = .next t) ∨
    (s.env.script = [] ∧ s.phase = .idle ∧ t = s) ∨
    ∃ l ls, s.env.script = l :: ls ∧ l.wellFormed s.ptMax = true ∧
      ((l = .seq ∧ s.phase = .busy ∧ seqStep (withScript ls s) = .next t) ∨
       (∃ n v, l = .csrWrite n v ∧ t = csrWrite n v (withScript ls s)) ∨
       (∃ n, l = .csrRead n ∧ t = reply (csrReadValue n s) (withScript ls s)) ∨
       (∃ i b, l = .ibufWrite i b ∧ t = ibufWrite i b (withScript ls s)) ∨
       (∃ i, l = .obufRead i ∧ t = reply (.byte (obufReadValue i s)) (withScript ls s)) ∨
       (∃ a, l = .rng a ∧ t = fixDraw a (withScript ls s)) ∨
       (l = .reset ∧ t = hardReset (withScript ls s))) := by
  cases hs : s.env.script with
  | nil =>
    rw [step_of_nil hs, runUnscripted] at h
    cases hp : s.phase with
    | busy => rw [hp] at h; exact .inl ⟨rfl, rfl, h⟩
    | idle => rw [hp] at h; cases h; exact .inr (.inl ⟨rfl, rfl, rfl⟩)
    | fatal => rw [hp] at h; cases h
  | cons l ls =>
    rw [step_of_cons hs, runLine] at h
    refine .inr (.inr ⟨l, ls, rfl, ?_⟩)
    split at h
    · rename_i hw
      refine ⟨hw, ?_⟩
      cases l with
      | csrWrite n v => cases h; exact .inr (.inl ⟨n, v, rfl, rfl⟩)
      | csrRead n => cases h; exact .inr (.inr (.inl ⟨n, rfl, rfl⟩))
      | ibufWrite i b => cases h; exact .inr (.inr (.inr (.inl ⟨i, b, rfl, rfl⟩)))
      | obufRead i => cases h; exact .inr (.inr (.inr (.inr (.inl ⟨i, rfl, rfl⟩))))
      | seq =>
        rw [takeLine] at h
        split at h
        · exact .inl ⟨rfl, ‹_›, h⟩
        · cases h
      | rng a => cases h; exact .inr (.inr (.inr (.inr (.inr (.inl ⟨a, rfl, rfl⟩)))))
      | reset => cases h; exact .inr (.inr (.inr (.inr (.inr (.inr ⟨rfl, rfl⟩)))))
    · cases h

end Sys2Proof.Machine
end

