-- ==== Sys2Proof/Machine/Script.lean ====
section
/-! DEFINITION. The script notation's lines for the four commands (R106) and its pseudo-instructions, each as its expansion into
lines (R107). Where an expansion depends on what a read returned, that value is its argument. -/

namespace Sys2Proof.Machine

/-- A command as written in a script: `CSRW 0x00, op` (R106). -/
def commandLine (i : Instr) : Line := .csrWrite 0x00 (.byte i.opcode)

/-- `IBW i, s[0]; IBW i+1, s[1]; ...`. -/
def ibwLines : Nat → List Byte → List Line
  | _, [] => []
  | i, b :: bs => .ibufWrite i b :: ibwLines (i + 1) bs

/-- `LDKEY` and `LDKEYX`: `CSRW 0x05, v` (R107). -/
def ldKey (v : Block) : List Line := [.csrWrite 0x05 (.key v)]

/-- `LDIN s`: the bytes of `s` to IBUF from index 0 on, then their number to ILEN (R107). -/
def ldIn (s : List Byte) : List Line := ibwLines 0 s ++ [.csrWrite 0x03 (.len s.length)]

/-- `WAIT`: the STATUS read; "in a script it stands after a `SEQ` line, so one read suffices" (R107). -/
def waitDone : List Line := [.csrRead 0x01]

/-- `RDOUT`, where the read of OLEN returned `n` (R107). -/
def rdOut (n : Nat) : List Line := .csrRead 0x04 :: (List.range n).map Line.obufRead

/-- `RDKEY` (R107). -/
def rdKey : List Line := [.csrRead 0x05]

/-- `MOVOUT`, where the reads of `RDOUT` returned the bytes `s` (R107). -/
def movOut (s : List Byte) : List Line := rdOut s.length ++ ldIn s

end Sys2Proof.Machine
end

