-- ==== Sys2Proof/Tests/Slice0.lean ====
section
/-! SUPPORT. The model's own tests: ill-formed terms refused, opcode words written out, one step per vector of the spec
(95_test_vectors.md), and for every obligation with hypotheses a witness that meets them, at the boundaries of each clause. The
expected values are the spec's. PT_MAX is 64 here, so BUF_CAP is 160 and LEN_W is 8 (R12). -/

set_option Elab.async false -- one theorem at a time: the evaluations below are large

namespace Sys2Proof.Tests

open Sys2Proof Sys2Proof.Machine

/-! ### Helpers -/

/-- After reset, PT_MAX = 64. -/
def base : State := State.resetWith ⟨64, by decide⟩

/-- `K_A`, sixteen times the letter A. -/
def keyA : Block := Block.ofFn fun _ => 0x41

/-- `IV0`, the bytes 00 to 0f. -/
def iv0 : Block := Block.ofFn fun i => BitVec.ofNat 8 i.val

/-- The "before" state of V10: KEY = `K_A`, IBUF = 61 62 63, ILEN = 3. -/
def before : State := { base with key := keyA, keyValid := true, ilen := 3, ibuf := [(0, 0x61), (1, 0x62), (2, 0x63)] }

/-- With this script to come. -/
def script (ls : List Line) (s : State) : State := { s with env := { s.env with script := ls } }

/-- With this answer standing for the next draw. -/
def answer (a : RngAnswer) (s : State) : State := { s with env := { s.env with rng := some a } }

/-- With this command in flight and the sequencer to step next. -/
def busy (op : Byte) (s : State) : State := script [.seq] { s with phase := .busy, cmdl := op }

/-- Stopped by a starved draw. -/
def fatal (s : State) : State := { s with phase := .fatal, error := true, err := 0xFF }

/-- The index draw of the example of R195. -/
def drawR195 : Vector (Fin 62) 16 := #v[0, 26, 52, 1, 27, 53, 2, 28, 54, 25, 51, 61, 3, 29, 55, 4]

/-- The outcome is a next state of which `p` holds. -/
def nextIs (p : State → Bool) : Host.Outcome State Fault Refusal → Bool
  | .next t => p t
  | .fault _ => false
  | .refused _ => false

/-- The outcome is this refusal. -/
def refusedAs (r : Refusal) : Host.Outcome State Fault Refusal → Bool
  | .next _ => false
  | .fault _ => false
  | .refused q => q == r

/-- ERR and PHASE after a step. -/
def endsIn (e : Byte) (ph : Phase) (o : Host.Outcome State Fault Refusal) : Bool :=
  nextIs (fun t => t.err == e && t.phase == ph) o

/-- The ciphertext block and the digest field of the blob of V10. -/
def tailV10 : List Byte :=
  [0x7c, 0x1c, 0x47, 0x03, 0x35, 0x72, 0x31, 0xd3, 0x0b, 0xd1, 0x49, 0x01, 0x44, 0x5d, 0x76, 0x5b] ++
  [0x62, 0x61, 0x37, 0x38, 0x31, 0x36, 0x62, 0x66, 0x38, 0x66, 0x30, 0x31, 0x63, 0x66, 0x65, 0x61] ++
  [0x34, 0x31, 0x34, 0x31, 0x34, 0x30, 0x64, 0x65, 0x35, 0x64, 0x61, 0x65, 0x32, 0x32, 0x32, 0x33] ++
  [0x62, 0x30, 0x30, 0x33, 0x36, 0x31, 0x61, 0x33, 0x39, 0x36, 0x31, 0x37, 0x37, 0x61, 0x39, 0x63] ++
  [0x62, 0x34, 0x31, 0x30, 0x66, 0x66, 0x36, 0x31, 0x66, 0x32, 0x30, 0x30, 0x31, 0x35, 0x61, 0x64]

/-- The blob of V10. -/
def blobV10 : List Byte := iv0.toBytes ++ tailV10

/-- The state before V11: the blob of V10 in IBUF, KEY = `K_A`. -/
def beforeV11 : State := { base with key := keyA, keyValid := true, ilen := 96, ibuf := memWrite [] 0 blobV10 }

/-! ### Well-formedness: each check has an ill-formed term that it refuses, and the step refuses the line -/

theorem test_every_command_well_formed :
    [Instr.genkey, .encrypt, .decrypt, .clear].all Instr.wellFormed = true := by decide

theorem test_ill_byte_to_ilen : (Line.csrWrite 0x03 (.byte 0x05)).wellFormed base.ptMax = false := by decide

theorem test_ill_byte_to_olen : (Line.csrWrite 0x04 (.byte 0x05)).wellFormed base.ptMax = false := by decide

theorem test_ill_byte_to_key : (Line.csrWrite 0x05 (.byte 0x00)).wellFormed base.ptMax = false := by decide

theorem test_ill_length_to_cmd : (Line.csrWrite 0x00 (.len 3)).wellFormed base.ptMax = false := by decide

theorem test_ill_length_too_wide : (Line.csrWrite 0x03 (.len 256)).wellFormed base.ptMax = false := by decide

theorem test_ill_key_to_cmd : (Line.csrWrite 0x00 (.key keyA)).wellFormed base.ptMax = false := by decide

theorem test_ill_key_to_unassigned : (Line.csrWrite 0x06 (.key keyA)).wellFormed base.ptMax = false := by decide

theorem test_length_of_full_width : (Line.csrWrite 0x03 (.len 255)).wellFormed base.ptMax = true := by decide

theorem test_step_refuses_ill_formed :
    refusedAs .malformedTransaction (step (script [.csrWrite 0x03 (.len 256)] base)) = true := by decide

theorem test_step_refuses_seq_in_idle : refusedAs .sequencerNotEnabled (step (script [.seq] base)) = true := by decide

/-! ### Decoding: the opcode bytes written out bit by bit from R91 -/

theorem test_decode_genkey : decode [0b00000001] = .ok (.genkey, []) := by decide

theorem test_decode_encrypt : decode [0b00000010, 0b00000001] = .ok (.encrypt, [0b00000001]) := by decide

theorem test_decode_decrypt : decode [0b00000011] = .ok (.decrypt, []) := by decide

theorem test_decode_clear : decode [0b00000100] = .ok (.clear, []) := by decide

theorem test_decode_zero : decode [0b00000000] = .error (.illegalOpcode 0x00) := by decide

theorem test_decode_five : decode [0b00000101] = .error (.illegalOpcode 0x05) := by decide

theorem test_decode_high_bit : decode [0b10000001] = .error (.illegalOpcode 0x81) := by decide

theorem test_decode_no_byte : decode [] = .error .noByte := by decide

theorem test_table_words :
    [1, 2, 3, 4].map (decodeTableWord 8) = [some Instr.genkey, some .encrypt, some .decrypt, some .clear] := by decide

/-- The placed word is what the very next step runs: CLEAR, from reset. -/
theorem test_placed_clear_runs :
    nextIs (fun t => t.phase == .idle && t.done && !t.keyValid) (step (State.reset.withFetchWord 8 4)) = true := by decide

/-! ### One step per instruction -/

/-- V9: GENKEY with the draw of R195 gives "aA0bB1cC2zZ9dD3e". -/
theorem test_genkey_V9 :
    nextIs (fun t => t.key.toBytes == [0x61, 0x41, 0x30, 0x62, 0x42, 0x31, 0x63, 0x43, 0x32, 0x7a, 0x5a, 0x39, 0x64, 0x44,
      0x33, 0x65] && statusByte t == 0x12 && t.olen == 0) (step (busy 0x01 (answer (.indexes drawR195) base))) = true := by
  decide +kernel

/-- R196: GENKEY starved keeps KEY and KEY_VALID. -/
theorem test_genkey_starved :
    nextIs (fun t => t.key == keyA && t.keyValid && t.err == 0xFF && t.phase == .fatal)
      (step (busy 0x01 (answer .starve before))) = true := by decide +kernel

/-- V10: ENCRYPT of "abc". -/
theorem test_encrypt_V10 :
    nextIs (fun t => outputBytes t == blobV10 && statusByte t == 0x12 && t.ilen == 3)
      (step (busy 0x02 (answer (.bytes iv0) before))) = true := by decide +kernel

/-- V18: ENCRYPT starved. -/
theorem test_encrypt_V18 :
    nextIs (fun t => statusByte t == 0x1C && t.olen == 0 && csrReadValue 0x05 t == .key zeroBlock && t.key == keyA)
      (step (busy 0x02 (answer .starve before))) = true := by decide +kernel

/-- V11: DECRYPT of the blob of V10. -/
theorem test_decrypt_V11 :
    nextIs (fun t => outputBytes t == [0x61, 0x62, 0x63] && statusByte t == 0x12 && t.err == 0x00)
      (step (busy 0x03 beforeV11)) = true := by decide +kernel

/-- V14: byte 32 of that blob changed to `g` is MalformedBlob. -/
theorem test_decrypt_V14_not_hex :
    nextIs (fun t => statusByte t == 0x14 && t.err == 0x01 && t.olen == 0)
      (step (busy 0x03 { beforeV11 with ibuf := Memory.write beforeV11.ibuf 32 0x67 })) = true := by decide +kernel

/-- V19: CLEAR. -/
theorem test_clear_V19 :
    nextIs (fun t => statusByte t == 0x02 && t.key == zeroBlock && t.ilen == 0 && t.ibuf == [] && t.olen == 0)
      (step (busy 0x04 before)) = true := by decide +kernel

/-- V8 and R144: `Pad("abc")`. -/
theorem test_pad_abc : pad [0x61, 0x62, 0x63] = [0x61, 0x62, 0x63] ++ List.replicate 13 0x0d := by decide

/-- V8 and R145: the last byte decides, and every pad byte is looked at. -/
theorem test_unpad_broken : unpad (List.replicate 14 0x00 ++ [0x03, 0x02]) = none := by decide

/-- R106, R107: the lines of `LDIN "abc"` and of `ENCRYPT`. -/
theorem test_script_lines : ldIn [0x61, 0x62, 0x63] ++ [commandLine .encrypt] =
    [.ibufWrite 0 0x61, .ibufWrite 1 0x62, .ibufWrite 2 0x63, .csrWrite 0x03 (.len 3), .csrWrite 0x00 (.byte 0x02)] := by
  decide

/-! ### The edges of accept (V16) -/

theorem test_accept_zero : endsIn 0x10 .idle (step (script [.csrWrite 0x00 (.byte 0x00)] before)) = true := by decide

theorem test_accept_five : endsIn 0x10 .idle (step (script [.csrWrite 0x00 (.byte 0x05)] before)) = true := by decide

theorem test_accept_no_key_encrypt : endsIn 0x11 .idle (step (script [.csrWrite 0x00 (.byte 0x02)] base)) = true := by decide

theorem test_accept_no_key_before_length :
    endsIn 0x11 .idle (step (script [.csrWrite 0x00 (.byte 0x03)] { base with ilen := 161 })) = true := by decide

theorem test_accept_illegal_before_no_key :
    endsIn 0x10 .idle (step (script [.csrWrite 0x00 (.byte 0x09)] base)) = true := by decide

theorem test_accept_encrypt_at_pt_max :
    endsIn 0x00 .busy (step (script [.csrWrite 0x00 (.byte 0x02)] { before with ilen := 64 })) = true := by decide

theorem test_accept_encrypt_past_pt_max :
    endsIn 0x12 .idle (step (script [.csrWrite 0x00 (.byte 0x02)] { before with ilen := 65 })) = true := by decide

theorem test_accept_decrypt_at_buf_cap :
    endsIn 0x00 .busy (step (script [.csrWrite 0x00 (.byte 0x03)] { before with ilen := 160 })) = true := by decide

theorem test_accept_decrypt_past_buf_cap :
    endsIn 0x12 .idle (step (script [.csrWrite 0x00 (.byte 0x03)] { before with ilen := 161 })) = true := by decide

theorem test_accept_genkey_always :
    endsIn 0x00 .busy (step (script [.csrWrite 0x00 (.byte 0x01)] { base with ilen := 255 })) = true := by decide

theorem test_accept_clear_always :
    endsIn 0x00 .busy (step (script [.csrWrite 0x00 (.byte 0x04)] { base with ilen := 255 })) = true := by decide

/-! ### Witnesses: for each obligation with hypotheses, states and operands that meet all of them -/

/-- `Inv` of a state with empty buffers, by its plain facts. -/
theorem inv_base : Inv base := by constructor <;> decide

theorem inv_before : Inv before := by constructor <;> decide

theorem inv_busy_clear : Inv (busy 0x04 before) := by constructor <;> decide

theorem inv_busy_encrypt : Inv (busy 0x02 (answer (.bytes iv0) before)) := by constructor <;> decide

theorem inv_fatal : Inv (fatal before) := by constructor <;> decide

theorem witness_OpcodeMapSelectsRows :
    ((0x01 : Byte) &&& 0xFF = 0x01) ∧ ((0x02 : Byte) &&& 0xFF = 0x02) ∧ ((0x03 : Byte) &&& 0xFF = 0x03) ∧
      ((0x04 : Byte) &&& 0xFF = 0x04) := by decide

theorem witness_DecodeAndEncodeAgree :
    decode [0x03, 0x07] = .ok (.decrypt, [0x07]) ∧ [0x03, 0x07] = encode .decrypt ++ [0x07] := by decide

theorem witness_StepRunsDecodedCommand :
    (busy 0x03 before).phase = .busy ∧ decode [(busy 0x03 before).cmdl] = .ok (.decrypt, []) ∧
      (busy 0x03 before).env.script = .seq :: [] ∧ (script [] (busy 0x03 before)).env.script = [] := by decide

theorem witness_StepAnswersOnLegalScripts :
    Inv (busy 0x04 before) ∧ LegalNext (busy 0x04 before) ∧
      ¬((busy 0x04 before).phase = .fatal ∧ nextLine (busy 0x04 before) = none) := by
  refine ⟨inv_busy_clear, ?_, by decide⟩
  rintro l ⟨⟩
  decide

theorem witness_AcceptAppliesChecksInOrder :
    (script [.csrWrite 0x00 (.byte 0x02)] before).phase = .idle ∧
      (script [.csrWrite 0x00 (.byte 0x02)] before).env.script = .csrWrite 0x00 (.byte 0x02) :: [] := by decide

theorem witness_WritesDroppedOutsideIdle :
    (busy 0x02 before).phase ≠ .idle ∧ (fatal before).phase ≠ .idle ∧
      (Line.csrWrite 0x00 (.byte 0x04)).wellFormed before.ptMax = true ∧
      (Line.csrWrite 0x05 (.key keyA)).wellFormed before.ptMax = true := by decide

theorem witness_CsrReadReturnsTable :
    (script [.csrRead 0x05] before).env.script = .csrRead 0x05 :: [] ∧ before.phase = .idle ∧
      (busy 0x02 before).phase ≠ .idle ∧ csrReadValue 0x05 before = .key keyA ∧
      csrReadValue 0x05 (busy 0x02 before) = .key zeroBlock ∧ csrReadValue 0x06 before = .byte 0x00 := by decide

theorem witness_CsrWriteEffects :
    (CsrValue.byte 0x01).hasWidthOf base.ptMax 0x00 = true ∧ (CsrValue.byte 0xFF).hasWidthOf base.ptMax 0x02 = true ∧
      (CsrValue.len 255).hasWidthOf base.ptMax 0x03 = true ∧ (CsrValue.len 0).hasWidthOf base.ptMax 0x04 = true ∧
      (CsrValue.key keyA).hasWidthOf base.ptMax 0x05 = true ∧ (CsrValue.byte 0x00).hasWidthOf base.ptMax 0x06 = true ∧
      bufCap base.ptMax = 160 ∧ bufCap base.ptMax < 2 ^ 8 ∧ ¬bufCap base.ptMax < 2 ^ 7 ∧ lenW base.ptMax = 8 := by
  decide

theorem witness_IbufWriteStoresOneByte :
    Memory.wf before.ibuf = true ∧ before.phase = .idle ∧ 159 < bufCap before.ptMax ∧ ¬160 < bufCap before.ptMax ∧
      nextIs (fun t => Memory.read t.ibuf 159 == 0x7a) (step (script [.ibufWrite 159 0x7a] before)) = true ∧
      nextIs (fun t => t.ibuf == before.ibuf) (step (script [.ibufWrite 160 0x7a] before)) = true := by decide

theorem witness_ObufReadIsGated :
    obufReadValue 1 { before with olen := 2, obuf := [(0, 0x61), (1, 0x62)] } = 0x62 ∧
      obufReadValue 2 { before with olen := 2, obuf := [(0, 0x61), (1, 0x62), (2, 0x63)] } = 0x00 ∧
      obufReadValue 0 { busy 0x02 before with olen := 2, obuf := [(0, 0x61), (1, 0x62)] } = 0x00 := by decide

theorem witness_ResetGivesStatedValues : (script [.reset] (fatal before)).env.script = .reset :: [] := by decide

theorem witness_GenkeyEndsWithDrawnKey : drawIndexes (answer (.indexes drawR195) base) = some drawR195 := by decide

theorem witness_GenkeyCommandRuns :
    (script [.csrWrite 0x00 (.byte 0x01), .seq] (answer (.indexes drawR195) base)).phase = .idle ∧
      drawIndexes (answer (.indexes drawR195) base) = some drawR195 ∧ drawIndexes (answer .starve base) = none := by decide

theorem witness_GeneratedKeysInAlphabet :
    exec .genkey (answer (.indexes drawR195) base) = .next (genkeyEnd (answer (.indexes drawR195) base)) ∧
      (genkeyEnd (answer (.indexes drawR195) base)).phase = .idle := ⟨rfl, by decide⟩

theorem witness_StarvedDrawIsFatal :
    drawIndexes (answer .starve base) = none ∧ drawBytes (answer .starve base) = none ∧
      (withScript [.csrWrite 0x00 (.byte 0x04)] (fatal base)).phase = .fatal ∧
      step (withScript [.csrWrite 0x00 (.byte 0x04)] (fatal base)) = .next (fatal base) ∧
      nextLine (withScript [.csrWrite 0x00 (.byte 0x04)] (fatal base)) ≠ some .reset :=
  ⟨by decide, by decide, rfl, rfl, by decide⟩

theorem witness_EncryptEndsWithBlob :
    drawBytes (answer (.bytes iv0) before) = some iv0 ∧ Memory.wf (answer (.bytes iv0) before).obuf = true := by decide

theorem witness_BlobLengthLaw : (List.replicate 15 (0x61 : Byte)).length ≤ 15 ∧ (pad (List.replicate 15 0x61)).length = 16 ∧
    (pad (List.replicate 16 0x61)).length = 32 := by decide

theorem witness_SerializedFieldsByPosition : (List.replicate 64 (0x30 : Byte)).length = 64 := by decide

theorem witness_DecryptFollowsDecisionList :
    Memory.wf beforeV11.obuf = true ∧ (slice (inputBytes beforeV11) 32 96).length = 64 ∧
      isHex64 (slice (inputBytes beforeV11) (beforeV11.ilen - 64) beforeV11.ilen) = true := by decide +kernel

/-- The edges of the list's first cases (V15): 79, 80 and 95 bytes, each with a hex tag, are MalformedBlob. -/
theorem witness_DecryptFollowsDecisionList_lengths :
    [79, 80, 95].all (fun n => nextIs (fun t => t.err == 0x01 && t.phase == .idle)
      (exec .decrypt { before with ilen := n, ibuf := memWrite [] (n - 64) (List.replicate 64 0x30) })) = true := by
  decide +kernel

/-- The case of the padding (V15): 96 bytes, IV and ciphertext zero, the tag hex. -/
theorem witness_DecryptFollowsDecisionList_padding :
    nextIs (fun t => t.err == 0x02 && t.olen == 0)
      (exec .decrypt { before with ilen := 96, ibuf := memWrite [] 32 (List.replicate 64 0x30) }) = true := by decide +kernel

/-- The case of the digest (V14): byte 32 changed from `b` to `c`. -/
theorem witness_DecryptFollowsDecisionList_digest :
    nextIs (fun t => t.err == 0x03 && t.olen == 0)
      (exec .decrypt { beforeV11 with ibuf := Memory.write beforeV11.ibuf 32 0x63 }) = true := by decide +kernel

theorem witness_MalformedLengthsFail :
    ({ before with ilen := 79 } : State).ilen < 80 ∧ ({ before with ilen := 80 } : State).ilen = 80 ∧
      (80 < ({ before with ilen := 95 } : State).ilen ∧ (({ before with ilen := 95 } : State).ilen - 80) % 16 ≠ 0) := by
  decide

theorem witness_DecryptSuccessMeans :
    Memory.wf (withScript [] (busy 0x03 beforeV11)).obuf = true ∧ (withScript [] (busy 0x03 beforeV11)).done = false ∧
      exec .decrypt (withScript [] (busy 0x03 beforeV11)) = .next (decryptEnd (withScript [] (busy 0x03 beforeV11))) ∧
      (decryptEnd (withScript [] (busy 0x03 beforeV11))).done = true := by
  refine ⟨by decide, by decide, exec_decrypt _, ?_⟩
  have bit : ∀ t : State, statusByte t = 0x12 → t.done = true := by
    intro t h
    rw [statusByte] at h
    revert h
    rcases t.phase <;> cases t.done <;> cases t.error <;> cases t.keyValid <;> decide
  have e : step (busy 0x03 beforeV11) = .next (decryptEnd (withScript [] (busy 0x03 beforeV11))) :=
    (step_seq rfl rfl).trans (seqStep_of_opcode (i := .decrypt) rfl)
  have v := test_decrypt_V11
  rw [e, nextIs, Bool.and_eq_true, Bool.and_eq_true, beq_iff_eq, beq_iff_eq] at v
  exact bit _ v.1.2

/-- The ENCRYPT of V10, and the state that holds its output as input. -/
theorem witness_EncryptThenDecryptReturnsPlaintext :
    ∃ s t u : State, drawBytes s = some iv0 ∧ Memory.wf s.obuf = true ∧ exec .encrypt s = .next t ∧ u.key = s.key ∧
      u.ilen = t.olen ∧ (∀ a, a < t.olen → Memory.read u.ibuf a = Memory.read t.obuf a) ∧ Memory.wf u.obuf = true :=
  ⟨answer (.bytes iv0) before, encryptEnd (answer (.bytes iv0) before),
    { before with ilen := (encryptEnd (answer (.bytes iv0) before)).olen,
                  ibuf := (encryptEnd (answer (.bytes iv0) before)).obuf },
    rfl, rfl, rfl, rfl, rfl, fun _ _ => rfl, rfl⟩

theorem witness_ClearCommandResetsAllButDone :
    Inv (script [.csrWrite 0x00 (.byte 0x04), .seq] before) ∧
      (script [.csrWrite 0x00 (.byte 0x04), .seq] before).phase = .idle := ⟨by constructor <;> decide, by decide⟩

theorem witness_CommandsChangeOnlyTheirPlaces :
    exec .genkey before = .next (genkeyEnd before) ∧ exec .encrypt before = .next (encryptEnd before) ∧
      exec .decrypt before = .next (decryptEnd before) ∧ exec .clear before = .next (clearEnd before) :=
  ⟨rfl, rfl, rfl, rfl⟩

theorem witness_FailedCommandLeavesNoTrace :
    exec .decrypt before = .next (decryptEnd before) ∧ before.error = false ∧ (decryptEnd before).error = true :=
  ⟨rfl, by decide, by decide⟩

theorem witness_SequencerStepEndsCommand :
    (busy 0x02 (answer (.bytes iv0) before)).env.script = .seq :: [] ∧
      (busy 0x02 (answer (.bytes iv0) before)).phase = .busy ∧ Inv (busy 0x02 (answer (.bytes iv0) before)) ∧
      (script [.seq] before).phase ≠ .busy := ⟨by decide, by decide, inv_busy_encrypt, by decide⟩

theorem witness_StepKeepsInvariant : Inv (busy 0x04 before) ∧
    step (busy 0x04 before) = .next (clearEnd (script [] (busy 0x04 before))) := ⟨inv_busy_clear, rfl⟩

theorem inv_busy_starved : Inv (busy 0x02 (answer .starve before)) := by constructor <;> decide

/-- The rows from IDLE: a write to CMD that passes its checks, one that does not, another transaction, no line. -/
theorem witness_PhaseMovesAsTabled_idle :
    Inv (script [.csrWrite 0x00 (.byte 0x02)] before) ∧ check 0x02 before = none ∧
      endsIn 0x00 .busy (step (script [.csrWrite 0x00 (.byte 0x02)] before)) = true ∧
      Inv (script [.csrWrite 0x00 (.byte 0x02)] base) ∧ check 0x02 base = some .noKey ∧
      endsIn 0x11 .idle (step (script [.csrWrite 0x00 (.byte 0x02)] base)) = true ∧
      Inv (script [.obufRead 0] before) ∧ endsIn 0x00 .idle (step (script [.obufRead 0] before)) = true ∧
      Inv before ∧ step before = .next before :=
  ⟨by constructor <;> decide, by decide, by decide, by constructor <;> decide, by decide, by decide,
    by constructor <;> decide, by decide, inv_before, rfl⟩

/-- The rows from BUSY: the SEQ step with no draw, the SEQ step starved, a host transaction. -/
theorem witness_PhaseMovesAsTabled_busy :
    Inv (busy 0x04 before) ∧ SeqNext (busy 0x04 before) ∧ ¬Starves (busy 0x04 before) ∧
      endsIn 0x00 .idle (step (busy 0x04 before)) = true ∧
      Inv (busy 0x02 (answer .starve before)) ∧ Starves (busy 0x02 (answer .starve before)) ∧
      step (busy 0x02 (answer .starve before)) = .next (encryptEnd (script [] (busy 0x02 (answer .starve before)))) ∧
      Inv (script [.csrRead 0x01] (busy 0x04 before)) ∧ ¬SeqNext (script [.csrRead 0x01] (busy 0x04 before)) ∧
      step (script [.csrRead 0x01] (busy 0x04 before)) = .next (reply (.byte 0x11) (script [] (busy 0x04 before))) :=
  ⟨inv_busy_clear, ⟨rfl, .inl rfl⟩, fun h => by cases h with | inl h => exact absurd h.1 (by decide) | inr h => exact absurd h.1 (by decide),
    by decide, inv_busy_starved, .inr ⟨rfl, rfl⟩, rfl, by constructor <;> decide,
    fun h => absurd h.2 (by decide), rfl⟩

/-- The rows from FATAL, and reset. -/
theorem witness_PhaseMovesAsTabled_fatal :
    Inv (script [.csrWrite 0x00 (.byte 0x04)] (fatal before)) ∧
      step (script [.csrWrite 0x00 (.byte 0x04)] (fatal before)) = .next (script [] (fatal before)) ∧
      Inv (script [.reset] (fatal before)) ∧ step (script [.reset] (fatal before)) = .next base ∧
      step (script [.reset] (busy 0x04 before)) = .next base :=
  ⟨by constructor <;> decide, rfl, by constructor <;> decide, rfl, rfl⟩

theorem witness_KeyChangesOnlyByItsWriters :
    step (script [.csrWrite 0x05 (.key keyA)] base) = .next { base with key := keyA, keyValid := true } ∧
      ({ base with key := keyA, keyValid := true } : State).key ≠ base.key := ⟨rfl, by decide⟩

theorem witness_InputChangesOnlyByItsWriters :
    step (script [.csrWrite 0x03 (.len 3)] base) = .next { base with ilen := 3 } ∧
      ({ base with ilen := 3 } : State).ilen ≠ base.ilen ∧
      step (script [.ibufWrite 0 0x61] base) = .next { base with ibuf := [(0, 0x61)] } ∧
      ({ base with ibuf := [(0, 0x61)] } : State).ibuf ≠ base.ibuf := by
  exact ⟨rfl, by decide, rfl, by decide⟩

theorem witness_ResultLastsUntilNextCommand :
    step (script [.csrWrite 0x03 (.len 3)] base) = .next { base with ilen := 3 } ∧
      (∀ v, nextLine (script [.csrWrite 0x03 (.len 3)] base) ≠ some (.csrWrite 0x00 (.byte v))) ∧
      ¬SeqNext (script [.csrWrite 0x03 (.len 3)] base) ∧ nextLine (script [.csrWrite 0x03 (.len 3)] base) ≠ some .reset :=
  ⟨rfl, fun _ h => (by cases h), fun h => (by cases h.1), by decide⟩

theorem witness_OperandsLockedInFlight :
    before.phase = .idle ∧
      nextLine (script [.csrWrite 0x00 (.byte 0x02)] before) = some (.csrWrite 0x00 (.byte 0x02)) ∧
      nextIs (fun t => t.phase == .busy) (step (script [.csrWrite 0x00 (.byte 0x02)] before)) = true ∧
      (busy 0x02 before).phase = .busy ∧
      nextIs (fun t => t.phase == .busy) (step (script [.ibufWrite 0 0x7a] (busy 0x02 before))) = true := by decide

/-- Two IDLE states that differ in CMDL and above OLEN only. -/
theorem witness_HostViewDeterminesBehaviour :
    Indistinguishable before { before with cmdl := 0x02, obuf := [(5, 0x61)] } := by
  refine ⟨rfl, rfl, rfl, rfl, rfl, rfl, rfl, rfl, rfl, ?_, fun _ => rfl, rfl, ?_, by decide⟩
  · intro a h
    exact absurd h (Nat.not_lt_zero a)
  · intro h
    cases h

/-- Two states that differ in KEY_VALID, above ILEN in IBUF, in CMDL and in the parameter. -/
theorem witness_CommandResultIsPure :
    ∃ s t : State, s ≠ t ∧ s.key = t.key ∧ s.ilen = t.ilen ∧
      (∀ a, a < s.ilen → Memory.read s.ibuf a = Memory.read t.ibuf a) ∧ drawBytes s = drawBytes t ∧
      drawIndexes s = drawIndexes t ∧ s.done = false ∧ t.done = false ∧ s.error = false ∧ t.error = false ∧
      s.err = 0x00 ∧ t.err = 0x00 ∧ s.olen = 0 ∧ t.olen = 0 ∧ Memory.wf s.obuf = true ∧ Memory.wf t.obuf = true :=
  ⟨before, { State.reset with key := keyA, ilen := 3, ibuf := before.ibuf ++ [(7, 0x61)], cmdl := 0x03 }, by decide, by decide,
    by decide, by decide, rfl, rfl, by decide, by decide, by decide, by decide, by decide, by decide, by decide, by decide,
    by decide, by decide⟩

theorem witness_CanonicalBuffersAreEqual :
    Memory.wf [(0, 0x61), (159, 0x62)] = true ∧ Memory.wf [(0, 0x61), (159, 0x62)] = true ∧
      ∀ a, Memory.read [(0, 0x61), (159, 0x62)] a = Memory.read [(0, 0x61), (159, 0x62)] a :=
  ⟨by decide, by decide, fun _ => rfl⟩

theorem witness_FieldLaws : (0x53 : Byte) ≠ 0x00 ∧ gmul 0x53 0xca = 0x01 := by decide

theorem witness_SboxIsInverseThenAffine : (0x53 : Byte) ≠ 0x00 ∧ sbox 0x53 = 0xed ∧ sbox 0x00 = 0x63 := by decide

theorem witness_RowShiftsFollowFormula :
    (13 : Fin 16).val = (1 : Fin 4).val + 4 * (3 : Fin 4).val ∧
      (1 : Fin 16).val = (1 : Fin 4).val + 4 * (((3 : Fin 4).val + (1 : Fin 4).val) % 4) ∧
      (9 : Fin 16).val = (1 : Fin 4).val + 4 * (((3 : Fin 4).val + 4 - (1 : Fin 4).val) % 4) := by decide

theorem witness_KeyExpansionRecurrence : (3 < 4) ∧ (4 ≤ 43 ∧ 43 < 44) ∧ (10 ≤ 10) ∧
    (keyExpansion zeroBlock).getD 4 default = ⟨0x62, 0x63, 0x63, 0x63⟩ := by decide +kernel

theorem witness_RoundKeyAdditionFollowsFormula :
    (0 : Fin 16).val = (0 : Fin 4).val + 4 * (0 : Fin 4).val ∧ (15 : Fin 16).val = (3 : Fin 4).val + 4 * (3 : Fin 4).val := by
  decide

theorem witness_CbcChainsBlocks : (pad []).length % 16 = 0 ∧ 0 < (pad []).length / 16 := by decide

theorem witness_CbcDecryptUndoesEncrypt : (pad [0x61]).length % 16 = 0 := by decide

theorem witness_UnpadAcceptsExactlyPadded :
    pad [] ≠ [] ∧ (pad []).length % 16 = 0 ∧ unpad (pad []) = some [] ∧ (0x00 : Byte) ∈ [(0x00 : Byte)] := by decide

/-- The rounds with MixColumns, 1 and 9; the round key of the round before them and after them. -/
theorem witness_BlockCipherFollowsRounds : 1 ≤ 1 ∧ 1 ≤ 9 ∧ 9 ≤ 9 ∧ ¬10 ≤ 9 ∧ ¬1 ≤ 0 := by decide

/-- The ends of the ranges; R162's first and last constant and its last prime. -/
theorem witness_ShaWordFunctionsAndConstants :
    0 < 1 ∧ 31 < 32 ∧ 0 < 64 ∧ 63 < 64 ∧ shaK.getD 0 0 = 0x428a2f98 ∧ shaK.getD 63 0 = 0xc67178f2 ∧
      (rotr 0x80000001 31).toNat = 3 ∧ (rotr 0x80000001 1).toNat = 0xc0000000 ∧ (311 ∈ primesBelow 312) := by
  decide +kernel

/-- The ends of the ranges: word 7, round 63, the empty message's one block. -/
theorem witness_ShaHashFollowsRounds :
    7 < 8 ∧ 63 < 64 ∧ ([] : List Byte).length ≤ 2 ^ 61 - 1 ∧ (shaPad []).length / 64 = 1 ∧ shaInit.h = 0x5be0cd19 ∧
      primesBelow 20 = [2, 3, 5, 7, 11, 13, 17, 19] := by decide +kernel

theorem witness_ShaPaddingForm : (List.replicate 55 (0x61 : Byte)).length ≤ 2 ^ 61 - 1 ∧ shaZeros 55 = 0 ∧
    shaZeros 56 = 63 := by decide

theorem witness_ShaScheduleRecurrence : 15 < 16 ∧ 16 ≤ 63 ∧ 63 < 64 := by decide

theorem witness_HexEncodeByNibbles : (0 < [(0x0a : Byte)].length) ∧ hexEncode [0x0a] = [0x30, 0x61] ∧ 9 < 10 ∧ 15 < 16 := by
  decide

end Sys2Proof.Tests
end

section
/-! PROOFS. Scope (00_scope.md section 4): the result of a command is a function of its operands and its draw (R9). -/

namespace Sys2Proof.Machine

/-! ### How each command ends, by what its draw or its decryption answers -/

theorem genkeyEnd_of_answered {s : State} {idx : Vector (Fin Config.nAlpha) 16} (h : drawIndexes s = some idx) :
    genkeyEnd s = complete { afterDraw s with key := keyOfIndexes idx, keyValid := true } := by rw [genkeyEnd, h]

theorem genkeyEnd_of_starved {s : State} (h : drawIndexes s = none) :
    genkeyEnd s = raise .entropyFatal (afterDraw s) := by rw [genkeyEnd, h]

theorem encryptEnd_of_answered {s : State} {iv : Block} (h : drawBytes s = some iv) :
    encryptEnd s = complete { afterDraw s with
      obuf := memWrite s.obuf 0 (encryptBlob s.key (inputBytes s) iv),
      olen := (encryptBlob s.key (inputBytes s) iv).length } := by
  rw [encryptEnd, h, inputBytes]

theorem encryptEnd_of_starved {s : State} (h : drawBytes s = none) :
    encryptEnd s = raise .entropyFatal (afterDraw s) := by rw [encryptEnd, h]

theorem decryptEnd_of_ok {s : State} {p : List Byte} (h : decryptBlob s.key (inputBytes s) = .ok p) :
    decryptEnd s = complete { afterNoDraw s with obuf := memWrite s.obuf 0 p, olen := p.length } := by
  rw [decryptEnd, ← inputBytes, h]

theorem decryptEnd_of_error {s : State} {e : Failure} (h : decryptBlob s.key (inputBytes s) = .error e) :
    decryptEnd s = raise e (afterNoDraw s) := by
  rw [decryptEnd, ← inputBytes, h]

/-! ### The operand and the result as byte strings -/

theorem inputBytes_congr {s t : State} (hl : s.ilen = t.ilen)
    (hb : ∀ a, a < s.ilen → Memory.read s.ibuf a = Memory.read t.ibuf a) : inputBytes s = inputBytes t := by
  rw [inputBytes, inputBytes, ← hl, memRead_congr hb]

theorem outputBytes_of_olen_zero {s : State} (h : s.olen = 0) : outputBytes s = [] := by
  rw [outputBytes, h]
  rfl

/-- A byte string stored from index 0 on, with OLEN its length, is the whole output: nothing of the old OBUF shows. -/
theorem outputBytes_of_stored {s : State} {m : Memory} {bs : List Byte} (hm : Memory.wf m = true)
    (hb : s.obuf = memWrite m 0 bs) (hl : s.olen = bs.length) : outputBytes s = bs := by
  rw [outputBytes, hb, hl, memRead_memWrite hm]

/-! ### What a command starts from and what it ends with -/

/-- Two states that agree on all a command may look at, KEY, the input bytes and the draws, with their flags alike and no output,
as accept leaves them (R9, R250). -/
structure SameCommandInput (s t : State) : Prop where
  key : s.key = t.key
  input : inputBytes s = inputBytes t
  bytes : drawBytes s = drawBytes t
  indexes : drawIndexes s = drawIndexes t
  done : s.done = t.done
  error : s.error = t.error
  err : s.err = t.err
  olen_left : s.olen = 0
  olen_right : t.olen = 0
  obuf_wf_left : Memory.wf s.obuf = true
  obuf_wf_right : Memory.wf t.obuf = true

/-- Two states that show the same result of a command: PHASE, the flags, ERR, the output bytes and KEY. -/
structure SameResult (s t : State) : Prop where
  phase : s.phase = t.phase
  done : s.done = t.done
  error : s.error = t.error
  err : s.err = t.err
  olen : s.olen = t.olen
  output : outputBytes s = outputBytes t
  key : s.key = t.key

/-- A failure leaves no output, so its result is its code, with DONE and KEY as they were (R266). -/
theorem sameResult_raise (e : Failure) {s t : State} (hd : s.done = t.done) (hk : s.key = t.key) :
    SameResult (raise e s) (raise e t) :=
  ⟨rfl, hd, rfl, rfl, rfl, rfl, hk⟩

/-- The result of a completion that leaves OLEN at 0 (R27, R31). -/
theorem sameResult_complete_empty {s t : State} (he : s.error = t.error) (hc : s.err = t.err) (hs : s.olen = 0)
    (ht : t.olen = 0) (hk : s.key = t.key) : SameResult (complete s) (complete t) where
  phase := rfl
  done := rfl
  error := he
  err := hc
  olen := hs.trans ht.symm
  output := (outputBytes_of_olen_zero hs).trans (outputBytes_of_olen_zero ht).symm
  key := hk

/-- The result of a completion that stores `bs` as its output, over whatever OBUF held before (R27, R31). -/
theorem sameResult_complete_stored {s t : State} (bs : List Byte) (h : SameCommandInput s t) (es et : Env) :
    SameResult (complete { s with obuf := memWrite s.obuf 0 bs, olen := bs.length, env := es })
      (complete { t with obuf := memWrite t.obuf 0 bs, olen := bs.length, env := et }) where
  phase := rfl
  done := rfl
  error := h.error
  err := h.err
  olen := rfl
  output := (outputBytes_of_stored h.obuf_wf_left rfl rfl).trans (outputBytes_of_stored h.obuf_wf_right rfl rfl).symm
  key := h.key

/-! ### The four commands -/

theorem genkeyEnd_sameResult {s t : State} (h : SameCommandInput s t) : SameResult (genkeyEnd s) (genkeyEnd t) := by
  cases hd : drawIndexes t with
  | some idx =>
    rw [genkeyEnd_of_answered (h.indexes.trans hd), genkeyEnd_of_answered hd]
    exact sameResult_complete_empty h.error h.err h.olen_left h.olen_right rfl
  | none =>
    rw [genkeyEnd_of_starved (h.indexes.trans hd), genkeyEnd_of_starved hd]
    exact sameResult_raise _ h.done h.key

theorem encryptEnd_sameResult {s t : State} (h : SameCommandInput s t) : SameResult (encryptEnd s) (encryptEnd t) := by
  cases hd : drawBytes t with
  | some iv =>
    rw [encryptEnd_of_answered (h.bytes.trans hd), encryptEnd_of_answered hd, h.key, h.input]
    exact sameResult_complete_stored _ h _ _
  | none =>
    rw [encryptEnd_of_starved (h.bytes.trans hd), encryptEnd_of_starved hd]
    exact sameResult_raise _ h.done h.key

theorem decryptEnd_sameResult {s t : State} (h : SameCommandInput s t) : SameResult (decryptEnd s) (decryptEnd t) := by
  have blob : decryptBlob s.key (inputBytes s) = decryptBlob t.key (inputBytes t) := by rw [h.key, h.input]
  cases hd : decryptBlob t.key (inputBytes t) with
  | ok p =>
    rw [decryptEnd_of_ok (blob.trans hd), decryptEnd_of_ok hd]
    exact sameResult_complete_stored p h _ _
  | error e =>
    rw [decryptEnd_of_error (blob.trans hd), decryptEnd_of_error hd]
    exact sameResult_raise e h.done h.key

theorem clearEnd_sameResult {s t : State} (h : SameCommandInput s t) : SameResult (clearEnd s) (clearEnd t) :=
  sameResult_complete_empty h.error h.err h.olen_left h.olen_right rfl

/-- R9 as a relation: every command answers, and from the same command input with the same result. -/
theorem exec_sameResult (i : Instr) {s t : State} (h : SameCommandInput s t) :
    ∃ s' t', exec i s = .next s' ∧ exec i t = .next t' ∧ SameResult s' t' := by
  cases i with
  | genkey => exact ⟨_, _, exec_genkey s, exec_genkey t, genkeyEnd_sameResult h⟩
  | encrypt => exact ⟨_, _, exec_encrypt s, exec_encrypt t, encryptEnd_sameResult h⟩
  | decrypt => exact ⟨_, _, exec_decrypt s, exec_decrypt t, decryptEnd_sameResult h⟩
  | clear => exact ⟨_, _, exec_clear s, exec_clear t, clearEnd_sameResult h⟩

/-- Settles O39: the premises are a `SameCommandInput`, from which every command ends in a `SameResult`. -/
theorem commandResultIsPure : Obligations.CommandResultIsPure := by
  intro i s t key ilen input bytes indexes sDone tDone sError tError sErr tErr sOlen tOlen sWf tWf
  have h : SameCommandInput s t :=
    { key, bytes, indexes
      input := inputBytes_congr ilen input
      done := sDone.trans tDone.symm
      error := sError.trans tError.symm
      err := sErr.trans tErr.symm
      olen_left := sOlen
      olen_right := tOlen
      obuf_wf_left := sWf
      obuf_wf_right := tWf }
  obtain ⟨s', t', hs, ht, r⟩ := exec_sameResult i h
  exact ⟨s', t', hs, ht, r.phase, r.done, r.error, r.err, r.olen, r.output, r.key⟩

end Sys2Proof.Machine
end

section
/-! PROOFS. The state (10_state.md): what a step can change of it, the invariant of every reachable state, and who writes which
part. -/

namespace Sys2Proof.Machine

/-! ### STATUS and reset -/

/-- Bit `i` of a byte in which bit `n` is set when `c` holds. -/
theorem flagBit_getLsbD (n i : Nat) (c : Bool) : (flagBit n c).getLsbD i = (decide (i < 8 ∧ i = n) && c) := by
  cases c with
  | false => simp [flagBit]
  | true =>
    simp only [flagBit, if_true, BitVec.getLsbD_shiftLeft, BitVec.getLsbD_one, Bool.and_true]
    grind

/-- Settles O12: each bit of STATUS is the one flag composed there. -/
theorem statusBits : Obligations.StatusBits := by
  intro s
  simp only [statusByte, BitVec.getLsbD_or, flagBit_getLsbD]
  simp

/-- After reset STATUS reads 0x00 (R39). -/
theorem statusByte_hardReset (s : State) : statusByte (hardReset s) = 0x00 := by
  simp [statusByte, flagBit]

/-- Settles O13: reset leaves every field at its value, and the emptied buffers read 0x00 everywhere. -/
theorem resetGivesStatedValues : Obligations.ResetGivesStatedValues := by
  intro s ls h
  refine ⟨_, step_reset h, rfl, rfl, rfl, rfl, rfl, rfl, rfl, fun _ => rfl, rfl, fun a => ?_, rfl, rfl,
    statusByte_hardReset _, rfl, rfl⟩
  rw [obufReadValue, if_neg fun c => Nat.not_lt_zero a c.2]

/-! ### The placed command -/

/-- Settles O4: the SEQ line placed at the head of the script is the line the step takes. -/
theorem placedCommandRunsNext : Obligations.PlacedCommandRunsNext := by
  intro s i
  have placed : s.withFetchWord 8 i.opcode.toNat = inFlight i.opcode s := by cases i <;> rfl
  rw [placed, step_seq rfl rfl]
  exact seqStep_of_opcode rfl

/-! ### What a step can change -/

/-- Every state a step can lead to, by what it writes of the core; `e` is the agents' side after it (R60, R252, R300). -/
inductive StepEffect (s : State) : State → Prop
  /-- Nothing of the core: a read, a dropped write, an RNG line, no line. -/
  | nothing (e : Env) : StepEffect s { s with env := e }
  /-- A write to CMD taken in IDLE (R250). -/
  | cmdWrite (e : Env) (v : Byte) (idle : s.phase = .idle) (line : nextLine s = some (.csrWrite 0x00 (.byte v))) :
      StepEffect s (accept v { s with env := e })
  /-- A write of ILEN taken in IDLE (R62). -/
  | ilenWrite (e : Env) (l : Nat) (idle : s.phase = .idle) (line : nextLine s = some (.csrWrite 0x03 (.len l)))
      (fits : l < 2 ^ lenW s.ptMax) : StepEffect s { s with ilen := l, env := e }
  /-- A write of KEY taken in IDLE (R22, R62). -/
  | keyWrite (e : Env) (k : Block) (idle : s.phase = .idle) (line : nextLine s = some (.csrWrite 0x05 (.key k))) :
      StepEffect s { s with key := k, keyValid := true, env := e }
  /-- A write of a byte of IBUF taken in IDLE (R63). -/
  | ibufWrite (e : Env) (i : Nat) (b : Byte) (idle : s.phase = .idle) (line : nextLine s = some (.ibufWrite i b))
      (below : i < bufCap s.ptMax) : StepEffect s { s with ibuf := Memory.write s.ibuf i b, env := e }
  /-- The SEQ step of the command in flight (R252). -/
  | command (e : Env) (i : Instr) {t : State} (next : SeqNext s) (latched : s.cmdl = i.opcode)
      (run : exec i { s with env := e } = .next t) : StepEffect s t
  /-- Reset (R300). -/
  | reset (e : Env) (line : nextLine s = some .reset) : StepEffect s (hardReset { s with env := e })

/-- A SEQ step that answers carries out the command whose opcode is in CMDL. -/
theorem seqStep_exec {s t : State} (h : seqStep s = .next t) : ∃ i : Instr, s.cmdl = i.opcode ∧ exec i s = .next t := by
  obtain ⟨c, rfl⟩ | ⟨c, rfl⟩ | ⟨c, rfl⟩ | ⟨c, rfl⟩ := seqStep_next h
  · exact ⟨.genkey, c, rfl⟩
  · exact ⟨.encrypt, c, rfl⟩
  · exact ⟨.decrypt, c, rfl⟩
  · exact ⟨.clear, c, rfl⟩

theorem nextLine_of_cons {s : State} {l : Line} {ls : List Line} (h : s.env.script = l :: ls) : nextLine s = some l := by
  rw [nextLine, h, List.head?_cons]

/-- The effect of a register write whose value has the register's width. -/
theorem csrWrite_effect {s : State} {n : Nat} {v : CsrValue} {ls : List Line} (hs : s.env.script = .csrWrite n v :: ls)
    (hw : (Line.csrWrite n v).wellFormed s.ptMax = true) : StepEffect s (csrWrite n v (withScript ls s)) := by
  obtain ⟨idle, rfl, b, rfl, e⟩ | ⟨idle, rfl, l, rfl, e⟩ | ⟨idle, rfl, k, rfl, e⟩ | e :=
    csrWrite_cases n v (withScript ls s)
  · rw [e]; exact .cmdWrite _ b idle (nextLine_of_cons hs)
  · have fits : l < 2 ^ lenW s.ptMax := by simpa [Line.wellFormed, CsrValue.hasWidthOf] using hw
    rw [e]; exact .ilenWrite _ l idle (nextLine_of_cons hs) fits
  · rw [e]; exact .keyWrite _ k idle (nextLine_of_cons hs)
  · rw [e]; exact .nothing _

/-- Every step that answers a next state has one of the effects; the proofs about steps below are by cases on it. -/
theorem step_effect {s t : State} (h : step s = .next t) : StepEffect s t := by
  obtain ⟨hs, hp, run⟩ | ⟨-, -, rfl⟩ | ⟨l, ls, hs, hw, line⟩ := step_cases h
  · obtain ⟨i, latched, run⟩ := seqStep_exec run
    exact .command s.env i ⟨hp, .inr (by rw [nextLine, hs, List.head?_nil])⟩ latched run
  · exact .nothing t.env
  · have next := nextLine_of_cons hs
    obtain ⟨rfl, hp, run⟩ | ⟨n, v, rfl, rfl⟩ | ⟨n, -, rfl⟩ | ⟨i, b, rfl, rfl⟩ | ⟨i, -, rfl⟩ | ⟨a, -, rfl⟩ |
      ⟨rfl, rfl⟩ := line
    · obtain ⟨i, latched, run⟩ := seqStep_exec run
      exact .command _ i ⟨hp, .inl next⟩ latched run
    · exact csrWrite_effect hs hw
    · exact .nothing _
    · obtain ⟨idle, below, e⟩ | ⟨-, e⟩ := ibufWrite_cases i b (withScript ls s)
      · rw [e]; exact .ibufWrite _ i b idle next below
      · rw [e]; exact .nothing _
    · exact .nothing _
    · exact .nothing _
    · exact .reset _ next

/-! ### What accept and the commands leave alone -/

/-- The parameter, ILEN and IBUF are in `t` what they are in `s`. -/
structure KeepsInput (s t : State) : Prop where
  ptMax : t.ptMax = s.ptMax
  ilen : t.ilen = s.ilen
  ibuf : t.ibuf = s.ibuf

/-- The parameter and all the operands of a command are in `t` what they are in `s`, IBUF as the very same list. -/
structure KeepsOperands (s t : State) : Prop extends KeepsInput s t where
  key : t.key = s.key
  keyValid : t.keyValid = s.keyValid

theorem KeepsOperands.sameOperands {s t : State} (h : KeepsOperands s t) : SameOperands s t :=
  ⟨h.ptMax, h.key, h.keyValid, h.ilen, fun a => by rw [h.ibuf]⟩

/-- All but the operands and the agents' side is in `t` what it is in `s`. -/
abbrev KeepsResult (s t : State) : Prop :=
  t = { s with key := t.key, keyValid := t.keyValid, ilen := t.ilen, ibuf := t.ibuf, env := t.env }

theorem accept_keepsOperands (v : Byte) (s : State) : KeepsOperands s (accept v s) := by
  obtain ⟨e, -, h⟩ | ⟨-, h⟩ := accept_cases v s <;> rw [h] <;> exact ⟨⟨rfl, rfl, rfl⟩, rfl, rfl⟩

theorem genkeyEnd_keepsInput (s : State) : KeepsInput s (genkeyEnd s) := by
  obtain ⟨idx, -, h⟩ | ⟨-, h⟩ := genkeyEnd_cases s <;> rw [h] <;> exact ⟨rfl, rfl, rfl⟩

theorem encryptEnd_keepsOperands (s : State) : KeepsOperands s (encryptEnd s) := by
  obtain ⟨iv, -, h⟩ | ⟨-, h⟩ := encryptEnd_cases s <;> rw [h] <;> exact ⟨⟨rfl, rfl, rfl⟩, rfl, rfl⟩

theorem decryptEnd_keepsOperands (s : State) : KeepsOperands s (decryptEnd s) := by
  obtain ⟨p, -, h⟩ | ⟨e, -, h⟩ := decryptEnd_cases s <;> rw [h] <;> exact ⟨⟨rfl, rfl, rfl⟩, rfl, rfl⟩

/-- The two ways a command ends, by its result or by a failure (R252, R266). -/
theorem exec_ends {i : Instr} {s t : State} (h : exec i s = .next t) : (∃ u, t = complete u) ∨ ∃ e u, t = raise e u := by
  cases i with
  | genkey =>
    cases h
    obtain ⟨idx, -, h⟩ | ⟨-, h⟩ := genkeyEnd_cases s
    · exact .inl ⟨_, h⟩
    · exact .inr ⟨_, _, h⟩
  | encrypt =>
    cases h
    obtain ⟨iv, -, h⟩ | ⟨-, h⟩ := encryptEnd_cases s
    · exact .inl ⟨_, h⟩
    · exact .inr ⟨_, _, h⟩
  | decrypt =>
    cases h
    obtain ⟨p, -, h⟩ | ⟨e, -, h⟩ := decryptEnd_cases s
    · exact .inl ⟨_, h⟩
    · exact .inr ⟨_, _, h⟩
  | clear => cases h; exact .inl ⟨_, rfl⟩

theorem Failure.endPhase_ne_busy (e : Failure) : e.endPhase ≠ .busy := by cases e <;> decide

/-- No command is in flight after its SEQ step (R252). -/
theorem exec_phase_ne_busy {i : Instr} {s t : State} (h : exec i s = .next t) : t.phase ≠ .busy := by
  obtain ⟨u, rfl⟩ | ⟨e, u, rfl⟩ := exec_ends h
  · rw [complete_phase]; decide
  · exact e.endPhase_ne_busy

/-- Only CLEAR, of the commands, writes ILEN or IBUF (R92). -/
theorem exec_keepsInput {i : Instr} {s t : State} (h : exec i s = .next t) (hi : i ≠ .clear) : KeepsInput s t := by
  cases i with
  | genkey => cases h; exact genkeyEnd_keepsInput s
  | encrypt => cases h; exact (encryptEnd_keepsOperands s).toKeepsInput
  | decrypt => cases h; exact (decryptEnd_keepsOperands s).toKeepsInput
  | clear => exact absurd rfl hi

/-! ### Who writes what -/

/-- Settles O34: of the effects, only the write of KEY, GENKEY, CLEAR and reset touch KEY or KEY_VALID. -/
theorem keyChangesOnlyByItsWriters : Obligations.KeyChangesOnlyByItsWriters := by
  intro s t h change
  have kept (key : t.key = s.key) (keyValid : t.keyValid = s.keyValid) : False := change.elim (· key) (· keyValid)
  cases step_effect h with
  | nothing e => exact (kept rfl rfl).elim
  | cmdWrite e v =>
    have k := accept_keepsOperands v { s with env := e }
    exact (kept k.key k.keyValid).elim
  | ilenWrite e l => exact (kept rfl rfl).elim
  | keyWrite e k idle line => exact .inl ⟨idle, k, line, rfl, rfl⟩
  | ibufWrite e i b => exact (kept rfl rfl).elim
  | reset e line => exact .inr (.inr ⟨line, rfl⟩)
  | command e i next latched run =>
    cases i with
    | genkey =>
      cases run
      obtain ⟨idx, -, g⟩ | ⟨-, g⟩ := genkeyEnd_cases { s with env := e }
      · exact .inr (.inl ⟨next, .inl ⟨latched, by rw [g]; rfl⟩⟩)
      · exact (kept (by rw [g]; rfl) (by rw [g]; rfl)).elim
    | encrypt =>
      cases run
      have k := encryptEnd_keepsOperands { s with env := e }
      exact (kept k.key k.keyValid).elim
    | decrypt =>
      cases run
      have k := decryptEnd_keepsOperands { s with env := e }
      exact (kept k.key k.keyValid).elim
    | clear => cases run; exact .inr (.inl ⟨next, .inr ⟨latched, rfl⟩⟩)

/-- Settles O35: of the effects, only the writes of ILEN and IBUF, CLEAR and reset touch ILEN or IBUF. -/
theorem inputChangesOnlyByItsWriters : Obligations.InputChangesOnlyByItsWriters := by
  intro s t h
  have kept (ilen : t.ilen = s.ilen) {p : Prop} (change : t.ilen ≠ s.ilen) : p := absurd ilen change
  have keptBuf (ibuf : t.ibuf = s.ibuf) {p : Prop} (change : t.ibuf ≠ s.ibuf) : p := absurd ibuf change
  cases step_effect h with
  | nothing e => exact ⟨kept rfl, keptBuf rfl⟩
  | cmdWrite e v =>
    have k := accept_keepsOperands v { s with env := e }
    exact ⟨kept k.ilen, keptBuf k.ibuf⟩
  | ilenWrite e l idle line => exact ⟨fun _ => .inl ⟨idle, line⟩, keptBuf rfl⟩
  | keyWrite e k => exact ⟨kept rfl, keptBuf rfl⟩
  | ibufWrite e i b idle line below => exact ⟨kept rfl, fun _ => .inl ⟨idle, i, b, line, below⟩⟩
  | reset e line => exact ⟨fun _ => .inr (.inr line), fun _ => .inr (.inr line)⟩
  | command e i next latched run =>
    by_cases clear : i = .clear
    · subst clear
      exact ⟨fun _ => .inr (.inl ⟨next, latched⟩), fun _ => .inr (.inl ⟨next, latched⟩)⟩
    · have k := exec_keepsInput run clear
      exact ⟨kept k.ilen, keptBuf k.ibuf⟩

/-- Settles O36: every effect but accept, the SEQ step and reset leaves the result, CMDL and the working registers alone. -/
theorem resultLastsUntilNextCommand : Obligations.ResultLastsUntilNextCommand := by
  intro s t h notCmd notSeq notReset
  have same : KeepsResult s t := by
    cases step_effect h with
    | nothing e => rfl
    | cmdWrite e v idle line => exact absurd ⟨idle, v, line⟩ notCmd
    | ilenWrite e l => rfl
    | keyWrite e k => rfl
    | ibufWrite e i b => rfl
    | command e i next => exact absurd next notSeq
    | reset e line => exact absurd line notReset
  rw [same]
  exact ⟨rfl, rfl, rfl, rfl, rfl, rfl, rfl⟩

/-- A write to CMD that ends in BUSY was latched: its opcode is in CMDL and no operand has changed (R33, R250). -/
theorem accept_busy {v : Byte} {s : State} (h : (accept v s).phase = .busy) :
    (accept v s).cmdl = v ∧ KeepsOperands s (accept v s) := by
  obtain ⟨e, -, a⟩ | ⟨-, a⟩ := accept_cases v s
  · rw [a, raise_phase] at h
    exact absurd h e.endPhase_ne_busy
  · exact ⟨by rw [a, latch_cmdl], accept_keepsOperands v s⟩

/-- Settles O37: accept of a command in flight is a latch, and from BUSY the only effect that ends in BUSY is none. -/
theorem operandsLockedInFlight : Obligations.OperandsLockedInFlight := by
  refine ⟨fun s t v idle line h busy => ?_, fun s t busy h still => ?_⟩
  · obtain ⟨ls, hs⟩ := List.head?_eq_some_iff.1 line
    rw [step_cmdWrite hs idle] at h
    cases h
    obtain ⟨latched, kept⟩ := accept_busy busy
    exact ⟨latched, kept.sameOperands⟩
  · have notIdle : s.phase ≠ .idle := by rw [busy]; decide
    cases step_effect h with
    | nothing e => rfl
    | cmdWrite e v idle => exact absurd idle notIdle
    | ilenWrite e l idle => exact absurd idle notIdle
    | keyWrite e k idle => exact absurd idle notIdle
    | ibufWrite e i b idle => exact absurd idle notIdle
    | command e i next latched run => exact absurd still (exec_phase_ne_busy run)
    | reset e => cases still

/-! ### The invariant -/

/-- The part of `Inv` that speaks of the operands alone: ILEN, IBUF, KEY (R24, R29, R63). -/
structure OperandsWf (s : State) : Prop where
  ilen_fits : s.ilen < 2 ^ lenW s.ptMax
  ibuf_wf : Memory.wf s.ibuf = true
  ibuf_below : Memory.below (bufCap s.ptMax) s.ibuf = true
  no_key_zero : s.keyValid = false → s.key = zeroBlock

theorem Inv.operandsWf {s : State} (h : Inv s) : OperandsWf s :=
  ⟨h.ilen_fits, h.ibuf_wf, h.ibuf_below, h.no_key_zero⟩

theorem OperandsWf.of_keeps {s t : State} (h : OperandsWf s) (k : KeepsOperands s t) : OperandsWf t where
  ilen_fits := by rw [k.ilen, k.ptMax]; exact h.ilen_fits
  ibuf_wf := by rw [k.ibuf]; exact h.ibuf_wf
  ibuf_below := by rw [k.ibuf, k.ptMax]; exact h.ibuf_below
  no_key_zero := by rw [k.key, k.keyValid]; exact h.no_key_zero

/-- `Inv` says nothing of the agents' side. -/
theorem Inv.withEnv {s : State} (h : Inv s) (e : Env) : Inv { s with env := e } :=
  { h with busy_checked := fun busy => (check_congr rfl rfl rfl).trans (h.busy_checked busy) }

/-- An end by result makes `Inv` hold, if no failure stands in ERR and the output fits OBUF (R27, R31, R252). -/
theorem OperandsWf.inv_complete {s : State} (h : OperandsWf s) (error : s.error = false) (err : s.err = 0x00)
    (olen : s.olen ≤ bufCap s.ptMax) (wf : Memory.wf s.obuf = true) (below : Memory.below s.olen s.obuf = true) :
    Inv (complete s) where
  ilen_fits := h.ilen_fits
  olen_fits := olen
  ibuf_wf := h.ibuf_wf
  ibuf_below := h.ibuf_below
  obuf_wf := wf
  obuf_below := below
  not_both := by simp [error]
  error_iff := by simp [error, err]
  err_legal := by rw [complete_err, err]; decide
  error_olen := by simp [error]
  busy_clear := nofun
  busy_checked := nofun
  fatal_mark := nofun
  fatal_only := by rw [complete_err, err]; exact fun c => absurd c (by decide)
  cmdl_zero _ := rfl
  work_zero := rfl
  no_key_zero := h.no_key_zero

theorem Failure.code_ne_zero (e : Failure) : e.code ≠ 0x00 := by cases e <;> decide

theorem Failure.code_legal (e : Failure) : e.code ∈ legalErr := by cases e <;> decide

/-- ERR is 0xFF exactly at the end in FATAL (R260). -/
theorem Failure.code_eq_fatal_iff (e : Failure) : e.code = 0xFF ↔ e.endPhase = .fatal := by cases e <;> decide

/-- An end by failure makes `Inv` hold, for every failure (R266). -/
theorem OperandsWf.inv_raise {s : State} (e : Failure) (h : OperandsWf s) (done : s.done = false) : Inv (raise e s) where
  ilen_fits := h.ilen_fits
  olen_fits := Nat.zero_le _
  ibuf_wf := h.ibuf_wf
  ibuf_below := h.ibuf_below
  obuf_wf := rfl
  obuf_below := rfl
  not_both := by simp [done]
  error_iff := ⟨fun _ => e.code_ne_zero, fun _ => rfl⟩
  err_legal := e.code_legal
  error_olen _ := rfl
  busy_clear busy := absurd busy e.endPhase_ne_busy
  busy_checked busy := absurd busy e.endPhase_ne_busy
  fatal_mark fatal := ⟨rfl, e.code_eq_fatal_iff.2 fatal, rfl⟩
  fatal_only := e.code_eq_fatal_iff.1
  cmdl_zero _ := rfl
  work_zero := rfl
  no_key_zero := h.no_key_zero

/-- A command latched after its checks passed, over a cleared result, makes `Inv` hold (R250, R251). -/
theorem OperandsWf.inv_latch {s : State} {v : Byte} (h : OperandsWf s) (checked : check v s = none)
    (work : s.work = zeroWork) : Inv (latch v (clearOutput (clearFlags s))) where
  ilen_fits := h.ilen_fits
  olen_fits := Nat.zero_le _
  ibuf_wf := h.ibuf_wf
  ibuf_below := h.ibuf_below
  obuf_wf := rfl
  obuf_below := rfl
  not_both := by simp
  error_iff := by simp
  err_legal := by simp [legalErr]
  error_olen := nofun
  busy_clear _ := ⟨rfl, rfl, rfl, rfl⟩
  busy_checked _ := (check_congr rfl rfl rfl).trans checked
  fatal_mark := nofun
  fatal_only := nofun
  cmdl_zero c := absurd rfl c
  work_zero := work
  no_key_zero := h.no_key_zero

theorem inv_resetWith (p : Fin Config.ptBound) : Inv (State.resetWith p) where
  ilen_fits := Nat.two_pow_pos _
  olen_fits := Nat.zero_le _
  ibuf_wf := rfl
  ibuf_below := rfl
  obuf_wf := rfl
  obuf_below := rfl
  not_both := nofun
  error_iff := by simp [State.resetWith]
  err_legal := by simp [State.resetWith, legalErr]
  error_olen := nofun
  busy_clear := nofun
  busy_checked := nofun
  fatal_mark := nofun
  fatal_only := nofun
  cmdl_zero _ := rfl
  work_zero := rfl
  no_key_zero _ := rfl

/-- Settles O31: whatever PT_MAX, each clause is about zeros, empty buffers and PHASE IDLE. -/
theorem invariantHoldsAtReset : Obligations.InvariantHoldsAtReset := ⟨inv_resetWith, inv_resetWith Config.ptMax⟩

theorem Inv.after_accept {s : State} (h : Inv s) (v : Byte) : Inv (accept v s) := by
  obtain ⟨e, -, a⟩ | ⟨checked, a⟩ := accept_cases v s <;> rw [a]
  · exact OperandsWf.inv_raise e (h.operandsWf.of_keeps ⟨⟨rfl, rfl, rfl⟩, rfl, rfl⟩) rfl
  · exact h.operandsWf.inv_latch checked h.work_zero

/-- A completion that stores `bs` over the empty output of a command in flight keeps `Inv`, if `bs` fits OBUF (R31). -/
theorem Inv.complete_stored {s : State} (h : Inv s) (busy : s.phase = .busy) {bs : List Byte}
    (fits : bs.length ≤ bufCap s.ptMax) (e : Env) :
    Inv (complete { s with obuf := memWrite s.obuf 0 bs, olen := bs.length, env := e }) := by
  obtain ⟨-, error, err, olen⟩ := h.busy_clear busy
  have empty : Memory.below bs.length s.obuf = true := below_mono h.obuf_below (by omega)
  exact OperandsWf.inv_complete (h.operandsWf.of_keeps ⟨⟨rfl, rfl, rfl⟩, rfl, rfl⟩) error err fits
    (wf_memWrite 0 bs h.obuf_wf) (below_memWrite empty (Nat.zero_add _).le)

/-- A completion that writes operands and stores no output keeps `Inv`: it asks `OperandsWf` of them only. -/
theorem Inv.complete_unstored {s t : State} (h : Inv s) (busy : s.phase = .busy) (kept : KeepsResult s t)
    (wf : OperandsWf t) : Inv (complete t) := by
  obtain ⟨-, error, err, -⟩ := h.busy_clear busy
  rw [kept] at wf ⊢
  exact wf.inv_complete error err h.olen_fits h.obuf_wf h.obuf_below

/-- A command in flight that ends by failure keeps `Inv` (R266). -/
theorem Inv.raise_busy {s : State} (h : Inv s) (busy : s.phase = .busy) (f : Failure) (e : Env) :
    Inv (raise f { s with env := e }) :=
  OperandsWf.inv_raise f (h.withEnv e).operandsWf (h.busy_clear busy).1

/-- ENCRYPT passes its checks exactly with a key and a plaintext of at most PT_MAX bytes (R251). -/
theorem check_encrypt_eq_none {s : State} : check 0x02 s = none ↔ s.keyValid = true ∧ s.ilen ≤ s.ptMax.val := by
  cases key : s.keyValid <;> simp [check_eq, key]

/-- DECRYPT passes its checks exactly with a key and a blob of at most BUF_CAP bytes (R251). -/
theorem check_decrypt_eq_none {s : State} : check 0x03 s = none ↔ s.keyValid = true ∧ s.ilen ≤ bufCap s.ptMax := by
  cases key : s.keyValid <;> simp [check_eq, key]

/-- The blob of a plaintext of at most PT_MAX bytes fits OBUF (R12, R99). -/
theorem encryptBlob_length_le {p : Fin Config.ptBound} {pt : List Byte} (h : pt.length ≤ p.val) (k iv : Block) :
    (encryptBlob k pt iv).length ≤ bufCap p := by
  have le : pt.length / 16 ≤ p.val / 16 := Nat.div_le_div_right h
  simp only [encryptBlob, bufCap, serialize_length, cbcEncrypt_length, pad_length, digest64_length]
  omega

/-- The SEQ step of the command in flight keeps `Inv`, whatever its draw or its decryption answers. -/
theorem Inv.after_exec {s t : State} {i : Instr} (h : Inv s) (busy : s.phase = .busy) (latched : s.cmdl = i.opcode)
    (run : exec i s = .next t) : Inv t := by
  have checked := h.busy_checked busy
  rw [latched] at checked
  cases i with
  | genkey =>
    cases run
    obtain ⟨idx, -, g⟩ | ⟨-, g⟩ := genkeyEnd_cases s <;> rw [g]
    · exact h.complete_unstored busy rfl ⟨h.ilen_fits, h.ibuf_wf, h.ibuf_below, nofun⟩
    · exact h.raise_busy busy _ _
  | encrypt =>
    cases run
    obtain ⟨iv, -, g⟩ | ⟨-, g⟩ := encryptEnd_cases s <;> rw [g]
    · refine h.complete_stored busy (encryptBlob_length_le ?_ s.key iv) _
      rw [memRead_length]
      exact (check_encrypt_eq_none.1 checked).2
    · exact h.raise_busy busy _ _
  | decrypt =>
    cases run
    obtain ⟨p, ok, g⟩ | ⟨f, -, g⟩ := decryptEnd_cases s <;> rw [g]
    · have shorter := decryptBlob_length ok
      rw [memRead_length] at shorter
      exact h.complete_stored busy (shorter.trans (check_decrypt_eq_none.1 checked).2) _
    · exact h.raise_busy busy _ _
  | clear => cases run; exact h.complete_unstored busy rfl ⟨Nat.two_pow_pos _, rfl, rfl, fun _ => rfl⟩

/-- In IDLE the operands may be written freely within their bounds: `Inv` asks only `OperandsWf` of them. -/
theorem Inv.write_idle {s t : State} (h : Inv s) (idle : s.phase = .idle) (kept : KeepsResult s t) (wf : OperandsWf t) :
    Inv t := by
  rw [kept] at wf ⊢
  exact { wf, h with busy_checked := fun busy => by cases idle.symm.trans busy }

/-- Settles O32: every effect keeps the invariant. -/
theorem stepKeepsInvariant : Obligations.StepKeepsInvariant := by
  intro s t h run
  cases step_effect run with
  | nothing e => exact h.withEnv e
  | cmdWrite e v => exact (h.withEnv e).after_accept v
  | ilenWrite e l idle line fits => exact h.write_idle idle rfl ⟨fits, h.ibuf_wf, h.ibuf_below, h.no_key_zero⟩
  | keyWrite e k idle => exact h.write_idle idle rfl ⟨h.ilen_fits, h.ibuf_wf, h.ibuf_below, nofun⟩
  | ibufWrite e i b idle line below =>
    exact h.write_idle idle rfl ⟨h.ilen_fits, wf_write i b h.ibuf_wf, below_write h.ibuf_below below, h.no_key_zero⟩
  | command e i next latched run => exact (h.withEnv e).after_exec next.1 latched run
  | reset e => exact (inv_resetWith s.ptMax).withEnv e

end Sys2Proof.Machine
end

section
/-! PROOFS. Memory (20_memory.md): the host's transactions on the registers and buffers, what each reads, writes and leaves, the
canonical form of a buffer, and where a step of the script answers. -/

namespace Sys2Proof.Machine

/-! ### The canonical form of a buffer -/

theorem read_cons_self (k : Nat) (v : Byte) (m : Memory) : Memory.read ((k, v) :: m) k = v := if_pos rfl

theorem read_cons_of_ne {k a : Nat} (h : k ≠ a) (v : Byte) (m : Memory) :
    Memory.read ((k, v) :: m) a = Memory.read m a := if_neg h

/-- A byte that reads as other than 0x00 lies at or above the first index of a canonical buffer. -/
theorem head_le_of_read_ne_zero {lo k a : Nat} {v : Byte} {m : Memory} (h : Memory.wfFrom lo ((k, v) :: m) = true)
    (ha : Memory.read ((k, v) :: m) a ≠ 0) : k ≤ a := by
  have fromHead : Memory.wfFrom k ((k, v) :: m) = true := wfFrom_cons.2 ⟨le_rfl, (wfFrom_cons.1 h).2⟩
  exact Nat.le_of_not_lt fun lt => ha (read_of_lt fromHead lt)

/-- Buffers whose indexes rise from `lo` on and that read alike are the same list: the first listed index of each reads as other
than 0x00 in both, so the heads are equal, and without the heads the tails still read alike. -/
theorem eq_of_read_eq {m n : Memory} {lo : Nat} (hm : Memory.wfFrom lo m = true) (hn : Memory.wfFrom lo n = true)
    (same : ∀ a, Memory.read m a = Memory.read n a) : m = n := by
  induction m generalizing n lo with
  | nil =>
    cases n with
    | nil => rfl
    | cons d n =>
      obtain ⟨j, w⟩ := d
      exact absurd ((read_cons_self j w n).symm.trans (same j).symm) (wfFrom_cons.1 hn).2.1
  | cons c m ih =>
    obtain ⟨k, v⟩ := c
    obtain ⟨-, v_ne, m_wf⟩ := wfFrom_cons.1 hm
    cases n with
    | nil => exact absurd ((read_cons_self k v m).symm.trans (same k)) v_ne
    | cons d n =>
      obtain ⟨j, w⟩ := d
      obtain ⟨-, w_ne, n_wf⟩ := wfFrom_cons.1 hn
      have index : k = j := by
        refine Nat.le_antisymm (head_le_of_read_ne_zero hm ?_) (head_le_of_read_ne_zero hn ?_)
        · rwa [same, read_cons_self]
        · rwa [← same, read_cons_self]
      subst index
      have byte : v = w := by
        have head := same k
        rwa [read_cons_self, read_cons_self] at head
      have tails (a : Nat) : Memory.read m a = Memory.read n a := by
        by_cases ha : k = a
        · rw [read_of_lt m_wf (by omega), read_of_lt n_wf (by omega)]
        · rw [← read_cons_of_ne ha v m, same, read_cons_of_ne ha]
      rw [byte, ih m_wf n_wf tails]

/-- Settles O40: the canonical form is the form with indexes rising from 0 on. -/
theorem canonicalBuffersAreEqual : Obligations.CanonicalBuffersAreEqual :=
  fun _ _ hm hn same => eq_of_read_eq hm hn same

/-! ### Where a step answers -/

/-- The SEQ step of a command in flight answers: CMDL still passes the checks of accept, so it is an opcode (R251, R252). -/
theorem Inv.seqStep_answers {s : State} (h : Inv s) (busy : s.phase = .busy) : ∃ t, seqStep s = .next t := by
  obtain ⟨-, run⟩ | ⟨-, run⟩ | ⟨-, run⟩ | ⟨-, run⟩ | ⟨n1, n2, n3, n4, -⟩ := seqStep_cases s
  · exact ⟨_, run⟩
  · exact ⟨_, run⟩
  · exact ⟨_, run⟩
  · exact ⟨_, run⟩
  · have checked := h.busy_checked busy
    rw [check_eq, if_neg n1, if_neg n2, if_neg n3, if_neg n4] at checked
    cases checked

/-- With no line to come the core steps while BUSY and stays as it is in IDLE (R253, R316). -/
theorem Inv.runUnscripted_answers {s : State} (h : Inv s) (notFatal : s.phase ≠ .fatal) :
    ∃ t, runUnscripted s = .next t := by
  rw [runUnscripted]
  cases phase : s.phase with
  | busy => exact h.seqStep_answers phase
  | idle => exact ⟨s, rfl⟩
  | fatal => exact absurd phase notFatal

/-- Settles O5: every line but SEQ answers whatever the state, and SEQ, said or not, stands where a command is in flight. -/
theorem stepAnswersOnLegalScripts : Obligations.StepAnswersOnLegalScripts := by
  intro s h legal notStopped
  cases script : s.env.script with
  | nil =>
    rw [step_of_nil script]
    exact h.runUnscripted_answers fun fatal => notStopped ⟨fatal, by rw [nextLine, script, List.head?_nil]⟩
  | cons l ls =>
    obtain ⟨wellFormed, seqBusy⟩ := legal l (nextLine_of_cons script)
    cases l with
    | csrWrite n v => exact ⟨_, step_csrWrite script wellFormed⟩
    | csrRead n => exact ⟨_, step_csrRead script⟩
    | ibufWrite i b => exact ⟨_, step_ibufWrite script⟩
    | obufRead i => exact ⟨_, step_obufRead script⟩
    | seq =>
      have busy := seqBusy rfl
      rw [step_seq script busy]
      exact Inv.seqStep_answers (h.withEnv _) busy
    | rng a => exact ⟨_, step_rng script⟩
    | reset => exact ⟨_, step_reset script⟩

/-! ### The writes -/

/-- Settles O7: a write of either kind is taken in IDLE only. -/
theorem writesDroppedOutsideIdle : Obligations.WritesDroppedOutsideIdle := by
  rintro s l ls notIdle script (⟨n, v, rfl, wellFormed⟩ | ⟨i, b, rfl⟩)
  · rw [step_csrWrite script wellFormed, csrWrite_of_not_idle (s := withScript ls s) notIdle]
  · rw [step_ibufWrite script, ibufWrite_of_not_idle (s := withScript ls s) notIdle]

/-- LEN_W is the least width that holds BUF_CAP (R12). -/
theorem lenW_le_iff (p : Fin Config.ptBound) (w : Nat) : lenW p ≤ w ↔ bufCap p < 2 ^ w := by
  have pos : bufCap p ≠ 0 := by rw [bufCap]; omega
  rw [lenW, Nat.succ_le_iff, Nat.log2_lt pos]

theorem csrWrite_cmd {s : State} (idle : s.phase = .idle) (b : Byte) : csrWrite 0x00 (.byte b) s = accept b s :=
  if_pos idle

theorem csrWrite_ilen {s : State} (idle : s.phase = .idle) (l : Nat) :
    csrWrite 0x03 (.len l) s = { s with ilen := l } := if_pos idle

theorem csrWrite_key {s : State} (idle : s.phase = .idle) (k : Block) :
    csrWrite 0x05 (.key k) s = { s with key := k, keyValid := true } := if_pos idle

/-- A write to any number but those of CMD, ILEN and KEY changes nothing (R62). -/
theorem csrWrite_of_not_writable {n : Nat} (notCmd : n ≠ 0x00) (notIlen : n ≠ 0x03) (notKey : n ≠ 0x05) (v : CsrValue)
    (s : State) : csrWrite n v s = s := by
  obtain ⟨-, c, -⟩ | ⟨-, c, -⟩ | ⟨-, c, -⟩ | unchanged := csrWrite_cases n v s
  · exact absurd c notCmd
  · exact absurd c notIlen
  · exact absurd c notKey
  · exact unchanged

theorem accept_env (v : Byte) (s : State) : (accept v s).env = s.env := by
  obtain ⟨e, -, h⟩ | ⟨-, h⟩ := accept_cases v s <;> rw [h] <;> rfl

theorem csrWrite_env (n : Nat) (v : CsrValue) (s : State) : (csrWrite n v s).env = s.env := by
  obtain ⟨-, -, b, -, h⟩ | ⟨-, -, l, -, h⟩ | ⟨-, -, k, -, h⟩ | h := csrWrite_cases n v s <;> rw [h]
  exact accept_env b s

/-- Settles O9: LEN_W by `lenW_le_iff`, and the write by its register number. -/
theorem csrWriteEffects : Obligations.CsrWriteEffects := by
  refine ⟨fun p => ⟨rfl, (lenW_le_iff p _).1 le_rfl, fun w => (lenW_le_iff p w).2⟩, ?_⟩
  intro s n v ls script width
  refine ⟨_, step_csrWrite script width, csrWrite_env n v _, fun notIdle => ?_, fun idle => ⟨?_, ?_, ?_, ?_⟩⟩
  · rw [csrWrite_of_not_idle (s := withScript ls s) notIdle]
    rfl
  · rintro b rfl rfl
    exact csrWrite_cmd (s := withScript ls s) idle b
  · rintro l rfl rfl
    rw [csrWrite_ilen (s := withScript ls s) idle]
    rfl
  · rintro k rfl rfl
    rw [csrWrite_key (s := withScript ls s) idle]
    rfl
  · intro notCmd notIlen notKey
    rw [csrWrite_of_not_writable notCmd notIlen notKey]
    rfl

/-- Settles O10: a taken write is one write to the sparse buffer, read back by `read_write`. -/
theorem ibufWriteStoresOneByte : Obligations.IbufWriteStoresOneByte := by
  intro s i b ls script wf
  rw [step_ibufWrite script]
  obtain ⟨idle, below, taken⟩ | ⟨notTaken, dropped⟩ := ibufWrite_cases i b (withScript ls s)
  · rw [taken]
    refine ⟨_, rfl, rfl, fun _ => ⟨rfl, ?_, fun a ne => ?_⟩, fun no => absurd ⟨idle, below⟩ no⟩
    · exact (read_write wf i b i).trans (if_pos rfl)
    · exact (read_write wf i b a).trans (if_neg ne)
  · rw [dropped]
    exact ⟨_, rfl, rfl, fun yes => absurd yes notTaken, fun _ => rfl⟩

/-! ### The reads -/

theorem csrReadValue_key_of_idle {s : State} (idle : s.phase = .idle) : csrReadValue 0x05 s = .key s.key :=
  congrArg CsrValue.key (if_pos idle)

/-- KEY does not show outside IDLE (R61). -/
theorem csrReadValue_key_of_not_idle {s : State} (notIdle : s.phase ≠ .idle) : csrReadValue 0x05 s = .key zeroBlock :=
  congrArg CsrValue.key (if_neg notIdle)

theorem csrReadValue_of_unassigned {n : Nat} (h : 0x05 < n) (s : State) : csrReadValue n s = .byte 0x00 := by
  obtain ⟨m, rfl⟩ : ∃ m, n = m + 6 := Nat.exists_eq_add_of_le' h
  rfl

/-- Settles O8: the step of a read answers `csrReadValue`, which is the table row by row. -/
theorem csrReadReturnsTable : Obligations.CsrReadReturnsTable := by
  intro s n ls script
  refine ⟨_, csrReadValue n s, step_csrRead script, rfl, rfl, ?_, ?_, ?_, ?_, ?_, ?_, ?_, ?_⟩
  · rintro rfl; rfl
  · rintro rfl; rfl
  · rintro rfl; rfl
  · rintro rfl; rfl
  · rintro rfl; rfl
  · rintro rfl idle; exact csrReadValue_key_of_idle idle
  · rintro rfl notIdle; exact csrReadValue_key_of_not_idle notIdle
  · exact fun unassigned => csrReadValue_of_unassigned unassigned s

/-- Settles O11: the byte returned is `obufReadValue`, gated by PHASE and OLEN. -/
theorem obufReadIsGated : Obligations.ObufReadIsGated := by
  intro s i ls script
  exact ⟨_, obufReadValue i s, step_obufRead script, rfl, rfl, fun shown => if_pos shown, fun hidden => if_neg hidden⟩

end Sys2Proof.Machine
end

section
/-! PROOFS. Encoding (30_encoding.md): the opcode map, the key alphabet, the blob's length and digest field, and the places each
command writes. -/

namespace Sys2Proof.Machine

/-! ### The opcode map -/

/-- The mask of every row of the opcode map keeps the whole byte (R91). -/
theorem and_rowMask (v : Byte) : v &&& 0xFF = v := BitVec.and_allOnes

/-- A byte decodes to a command exactly when it is that command's opcode (R91, R93). -/
theorem decodeByte_eq_ok_iff {v : Byte} {i : Instr} : decodeByte v = .ok i ↔ v = i.opcode := by
  constructor
  · intro h
    rw [decodeByte_eq] at h
    split_ifs at h with h1 h2 h3 h4 <;> cases h
    · exact h1
    · exact h2
    · exact h3
    · exact h4
  · rintro rfl
    cases i <;> rfl

/-- The decoder takes the first byte and gives back the others (R90). -/
theorem decode_cons_eq_ok_iff {v : Byte} {bs rest : List Byte} {i : Instr} :
    decode (v :: bs) = .ok (i, rest) ↔ decodeByte v = .ok i ∧ bs = rest := by
  rw [decode]
  cases decodeByte v <;> simp

/-- Settles O1: the mask keeps the byte, and each opcode decodes to its command. -/
theorem opcodeMapSelectsRows : Obligations.OpcodeMapSelectsRows := by
  have selects (i : Instr) (v : Byte) (h : v &&& 0xFF = i.opcode) : decodeByte v = .ok i :=
    decodeByte_eq_ok_iff.2 ((and_rowMask v).symm.trans h)
  exact ⟨rfl, rfl, rfl, rfl, fun v => ⟨selects .genkey v, selects .encrypt v, selects .decrypt v, selects .clear v⟩⟩

/-- Settles O2: the first byte of the string must be the opcode, and what follows it is the rest. -/
theorem decodeAndEncodeAgree : Obligations.DecodeAndEncodeAgree := by
  intro bs rest i
  cases bs with
  | nil => exact ⟨nofun, nofun⟩
  | cons v bs =>
    rw [decode_cons_eq_ok_iff, decodeByte_eq_ok_iff, encode, List.singleton_append, List.cons.injEq]

/-! ### The key alphabet -/

theorem charset_lower {k : Fin Config.nAlpha} (h : k.val < 26) : (charset k).toNat = 0x61 + k.val := by
  rw [charset, if_pos h, BitVec.toNat_ofNat]
  omega

theorem charset_upper {k : Fin Config.nAlpha} (h : 26 ≤ k.val) (h' : k.val < 52) :
    (charset k).toNat = 0x41 + k.val - 26 := by
  rw [charset, if_neg (by omega), if_pos h', BitVec.toNat_ofNat]
  omega

theorem charset_digit {k : Fin Config.nAlpha} (h : 52 ≤ k.val) : (charset k).toNat = 0x30 + k.val - 52 := by
  have bound : k.val < 62 := k.isLt
  rw [charset, if_neg (by omega), if_neg (by omega), BitVec.toNat_ofNat]
  omega

theorem isKeyChar_iff {b : Byte} : isKeyChar b = true ↔
    (0x61 ≤ b.toNat ∧ b.toNat ≤ 0x7A) ∨ (0x41 ≤ b.toNat ∧ b.toNat ≤ 0x5A) ∨ (0x30 ≤ b.toNat ∧ b.toNat ≤ 0x39) := by
  simp [isKeyChar, BitVec.le_def, or_assoc]

/-- Every entry of CHARSET is a letter or a digit, by its range (R102). -/
theorem isKeyChar_charset (k : Fin Config.nAlpha) : isKeyChar (charset k) = true := by
  have bound : k.val < 62 := k.isLt
  rw [isKeyChar_iff]
  by_cases lower : k.val < 26
  · rw [charset_lower lower]; omega
  · by_cases upper : k.val < 52
    · rw [charset_upper (by omega) upper]; omega
    · rw [charset_digit (by omega)]; omega

@[simp] theorem keyOfIndexes_get (idx : Vector (Fin Config.nAlpha) 16) (j : Fin 16) :
    (keyOfIndexes idx).get j = charset idx[j] := ofFn_get _ j

/-- Settles O16: CHARSET by its three ranges; a GENKEY that ends in IDLE is one whose draw was answered. -/
theorem generatedKeysInAlphabet : Obligations.GeneratedKeysInAlphabet := by
  refine ⟨fun k => ⟨charset_lower, charset_upper, charset_digit⟩, ?_⟩
  intro s t run idle j
  cases run
  obtain ⟨idx, -, h⟩ | ⟨-, h⟩ := genkeyEnd_cases s
  · rw [h, complete_key, keyOfIndexes_get]
    exact isKeyChar_charset _
  · rw [h] at idle
    cases idle

/-! ### The blob and its digest field -/

/-- Settles O19: the lengths of the blob's three fields added up. -/
theorem blobLengthLaw : Obligations.BlobLengthLaw := by
  intro k iv p
  have length : (encryptBlob k p iv).length = 16 + (16 * (p.length / 16) + 16) + 64 := by
    simp only [encryptBlob, serialize_length, cbcEncrypt_length, pad_length, digest64_length]
    omega
  rw [length]
  omega

theorem isLowerHex_hexDigit : ∀ v < 16, isLowerHex (hexDigit v) = true := by decide

/-- The encoder writes two of the 16 lowercase digits for each byte (R104, R171). -/
theorem isLowerHex_of_mem_hexEncode {d : List Byte} {c : Byte} (h : c ∈ hexEncode d) : isLowerHex c = true := by
  obtain ⟨b, -, h⟩ := List.mem_flatMap.1 h
  have bound := b.isLt
  obtain rfl | rfl : c = hexDigit (b.toNat / 16) ∨ c = hexDigit (b.toNat % 16) := by simpa [hexByte] using h
  · exact isLowerHex_hexDigit _ (by omega)
  · exact isLowerHex_hexDigit _ (by omega)

/-- The 22 codes of DECRYPT's check are the 16 lowercase ones and six more (R98, R100). -/
theorem isHexChar_of_isLowerHex {c : Byte} (h : isLowerHex c = true) : isHexChar c = true :=
  Bool.or_eq_true_iff.2 (.inl h)

/-- Settles O21: the tag is a hex encoding of 32 bytes, so each of its bytes is a lowercase digit. -/
theorem digestFieldIsLowercaseHex : Obligations.DigestFieldIsLowercaseHex := by
  intro p
  have lower : ∀ c ∈ digest64 p, isLowerHex c = true := fun c h => isLowerHex_of_mem_hexEncode h
  exact ⟨digest64_length p, List.all_eq_true.2 lower, List.all_eq_true.2 fun c h => isHexChar_of_isLowerHex (lower c h),
    sha256_length p⟩

/-! ### The places a command writes -/

/-- A command uses up its draw and leaves the rest of the agents' side alone (R106, R190). -/
theorem exec_env {i : Instr} {s t : State} (h : exec i s = .next t) :
    t.env = (afterDraw s).env ∨ t.env = (afterNoDraw s).env := by
  cases i with
  | genkey => cases h; obtain ⟨_, -, h⟩ | ⟨-, h⟩ := genkeyEnd_cases s <;> rw [h] <;> exact .inl rfl
  | encrypt => cases h; obtain ⟨_, -, h⟩ | ⟨-, h⟩ := encryptEnd_cases s <;> rw [h] <;> exact .inl rfl
  | decrypt => cases h; obtain ⟨_, -, h⟩ | ⟨_, -, h⟩ := decryptEnd_cases s <;> rw [h] <;> exact .inr rfl
  | clear => cases h; exact .inr rfl

theorem exec_script_replies {i : Instr} {s t : State} (h : exec i s = .next t) :
    t.env.script = s.env.script ∧ t.env.replies = s.env.replies := by
  obtain h | h := exec_env h <;> rw [h] <;> exact ⟨rfl, rfl⟩

theorem exec_ptMax {i : Instr} {s t : State} (h : exec i s = .next t) : t.ptMax = s.ptMax := by
  by_cases hi : i = .clear
  · subst hi; cases h; rfl
  · exact (exec_keepsInput h hi).ptMax

/-- CMDL and the working registers are zero after a command, however it ends (R37). -/
theorem exec_zeroised {i : Instr} {s t : State} (h : exec i s = .next t) : t.cmdl = 0x00 ∧ t.work = zeroWork := by
  obtain ⟨u, rfl⟩ | ⟨e, u, rfl⟩ := exec_ends h <;> exact ⟨rfl, rfl⟩

/-- GENKEY stores nothing in OBUF: it leaves the output, or the failure of its draw empties it (R195, R196). -/
theorem genkeyEnd_output (s : State) :
    ((genkeyEnd s).olen = s.olen ∧ (genkeyEnd s).obuf = s.obuf) ∨ ((genkeyEnd s).olen = 0 ∧ (genkeyEnd s).obuf = []) := by
  obtain ⟨idx, -, h⟩ | ⟨-, h⟩ := genkeyEnd_cases s <;> rw [h]
  · exact .inl ⟨rfl, rfl⟩
  · exact .inr ⟨rfl, rfl⟩

/-- Settles O28: what every command leaves alone, then ENCRYPT and DECRYPT, GENKEY, and CLEAR, each by its own frame. -/
theorem commandsChangeOnlyTheirPlaces : Obligations.CommandsChangeOnlyTheirPlaces := by
  intro i s t run
  obtain ⟨script, replies⟩ := exec_script_replies run
  obtain ⟨cmdl, work⟩ := exec_zeroised run
  refine ⟨exec_ptMax run, script, replies, cmdl, work, exec_phase_ne_busy run, ?_, ?_, ?_⟩
  · rintro (rfl | rfl) <;> cases run
    · exact (encryptEnd_keepsOperands s).sameOperands
    · exact (decryptEnd_keepsOperands s).sameOperands
  · rintro rfl
    cases run
    have input := genkeyEnd_keepsInput s
    refine ⟨input.ilen, fun a => by rw [input.ibuf], ?_⟩
    obtain ⟨olen, obuf⟩ | ⟨olen, obuf⟩ := genkeyEnd_output s
    · exact .inl ⟨olen, fun a => by rw [obuf]⟩
    · exact .inr ⟨olen, fun a => by rw [obuf, read_nil]⟩
  · rintro rfl
    cases run
    exact ⟨rfl, rfl, rfl, fun _ => rfl⟩

end Sys2Proof.Machine
end

section
/-! PROOFS. The AES unit (40_aes128_cbc.md): the field GF(2^8), and the three keyless steps of a round with what undoes each. -/

namespace Sys2Proof.Machine

/-! ### GF(2^8): both operations are XOR-linear -/

theorem byte_xor_left_comm (a b c : Byte) : a ^^^ (b ^^^ c) = b ^^^ (a ^^^ c) := by ac_rfl

theorem byte_xor_xor_xor_comm (a b c d : Byte) : a ^^^ b ^^^ (c ^^^ d) = a ^^^ c ^^^ (b ^^^ d) := by ac_rfl

@[simp] theorem xtime_zero : xtime 0#8 = 0#8 := rfl

@[simp] theorem xtime_xor (a b : Byte) : xtime (a ^^^ b) = xtime a ^^^ xtime b := by
  rw [xtime, xtime, xtime, BitVec.shiftLeft_xor_distrib, BitVec.getLsbD_xor, byte_xor_xor_xor_comm]
  cases a.getLsbD 7 <;> cases b.getLsbD 7 <;> rfl

theorem xtimePow_zero_right (n : Nat) : xtimePow n 0 = 0 := by
  induction n with
  | zero => rfl
  | succ n ih => rw [xtimePow, ih]; rfl

theorem xtimePow_xor (n : Nat) (a b : Byte) : xtimePow n (a ^^^ b) = xtimePow n a ^^^ xtimePow n b := by
  induction n with
  | zero => rfl
  | succ n ih => rw [xtimePow, ih, xtime_xor, ← xtimePow, ← xtimePow]

theorem xtimePow_xtime (n : Nat) (a : Byte) : xtimePow n (xtime a) = xtime (xtimePow n a) := by
  induction n with
  | zero => rfl
  | succ n ih => rw [xtimePow, ih, ← xtimePow]

theorem xtimePow_eq_iterate (n : Nat) (a : Byte) : xtimePow n a = xtime^[n] a := by
  induction n with
  | zero => rfl
  | succ n ih => rw [xtimePow, ih, Function.iterate_succ_apply']

theorem gmulBelow_zero_left (b : Byte) (n : Nat) : gmulBelow 0 b n = 0 := by
  induction n with
  | zero => rfl
  | succ n ih => rw [gmulBelow, ih, xtimePow_zero_right, ite_self]; rfl

theorem gmulBelow_zero_right (a : Byte) (n : Nat) : gmulBelow a 0 n = 0 := by
  induction n with
  | zero => rfl
  | succ n ih => simpa [gmulBelow] using ih

theorem gmulBelow_xor_left (a b c : Byte) (n : Nat) :
    gmulBelow (a ^^^ b) c n = gmulBelow a c n ^^^ gmulBelow b c n := by
  induction n with
  | zero => simp [gmulBelow]
  | succ n ih =>
    rw [gmulBelow, gmulBelow, gmulBelow, ih, xtimePow_xor, byte_xor_xor_xor_comm]
    cases c.getLsbD n <;> simp

theorem gmulBelow_xor_right (a b c : Byte) (n : Nat) :
    gmulBelow a (b ^^^ c) n = gmulBelow a b n ^^^ gmulBelow a c n := by
  induction n with
  | zero => simp [gmulBelow]
  | succ n ih =>
    rw [gmulBelow, gmulBelow, gmulBelow, ih, BitVec.getLsbD_xor, byte_xor_xor_xor_comm]
    cases b.getLsbD n <;> cases c.getLsbD n <;> simp

theorem gmulBelow_xtime_left (a b : Byte) (n : Nat) : gmulBelow (xtime a) b n = xtime (gmulBelow a b n) := by
  induction n with
  | zero => exact xtime_zero.symm
  | succ n ih => rw [gmulBelow, gmulBelow, ih, xtimePow_xtime, xtime_xor, apply_ite xtime]; rfl

theorem gmulBelow_eq_foldl (a b : Byte) (n : Nat) : gmulBelow a b n =
    (List.range n).foldl (fun x i => x ^^^ (if b.getLsbD i then xtime^[i] a else 0x00)) 0x00 := by
  induction n with
  | zero => rfl
  | succ n ih => rw [List.range_succ, List.foldl_concat, ← ih, gmulBelow, xtimePow_eq_iterate]

/-! ### GF(2^8): the laws of the product -/

theorem gmul_zero_left (a : Byte) : gmul 0 a = 0 := gmulBelow_zero_left a 8

theorem gmul_zero_right (a : Byte) : gmul a 0 = 0 := gmulBelow_zero_right a 8

theorem gmul_xor_left (a b c : Byte) : gmul (a ^^^ b) c = gmul a c ^^^ gmul b c := gmulBelow_xor_left a b c 8

theorem gmul_xor_right (a b c : Byte) : gmul a (b ^^^ c) = gmul a b ^^^ gmul a c := gmulBelow_xor_right a b c 8

theorem gmul_xtime_left (a b : Byte) : gmul (xtime a) b = xtime (gmul a b) := gmulBelow_xtime_left a b 8

theorem gmul_xtimePow_left (n : Nat) (a b : Byte) : gmul (xtimePow n a) b = xtimePow n (gmul a b) := by
  induction n with
  | zero => rfl
  | succ n ih => rw [xtimePow, gmul_xtime_left, ih, ← xtimePow]

theorem gmul_gmulBelow (a b c : Byte) (n : Nat) : gmul (gmulBelow a b n) c = gmulBelow (gmul a c) b n := by
  induction n with
  | zero => exact gmul_zero_left c
  | succ n ih =>
    rw [gmulBelow, gmulBelow, gmul_xor_left, ih, apply_ite (gmul · c), gmul_xtimePow_left, gmul_zero_left]

/-- Two factors on the right change places: the product by `b` is a sum of powers of `xtime`, which pass through the
product by `c`. Commutativity and associativity both come from this. -/
theorem gmul_right_comm (a b c : Byte) : gmul (gmul a b) c = gmul (gmul a c) b := gmul_gmulBelow a b c 8

/-- The powers of `x` below `x^8` are the eight single bits. -/
@[simp] theorem gmul_one_left : ∀ a : Byte, gmul 0x01 a = a := by decide +kernel

theorem gmul_comm (a b : Byte) : gmul a b = gmul b a := by
  have h := gmul_right_comm 0x01 a b
  rwa [gmul_one_left, gmul_one_left] at h

@[simp] theorem gmul_one_right (a : Byte) : gmul a 0x01 = a := by rw [gmul_comm, gmul_one_left]

theorem gmul_assoc (a b c : Byte) : gmul (gmul a b) c = gmul a (gmul b c) := by
  rw [gmul_comm a b, gmul_right_comm, gmul_comm]

/-- A byte has at most one inverse. -/
theorem inverse_unique {a b c : Byte} (hb : gmul a b = 0x01) (hc : gmul a c = 0x01) : c = b := by
  calc c = gmul (gmul a b) c := by rw [hb, gmul_one_left]
    _ = gmul (gmul a c) b := gmul_right_comm a b c
    _ = b := by rw [hc, gmul_one_left]

/-- The inverse of a byte, 0x00 for 0x00: SBOX with its affine map taken off (R123). -/
def fieldInverse (a : Byte) : Byte := rotl8 (sbox a) 1 ^^^ rotl8 (sbox a) 3 ^^^ rotl8 (sbox a) 6 ^^^ 0x05

theorem gmul_fieldInverse : ∀ a : Byte, a ≠ 0x00 → gmul a (fieldInverse a) = 0x01 := by decide +kernel

/-- Settles O41: the product is XOR-linear, and its laws follow from `gmul_right_comm` and the identity. -/
theorem fieldLaws : Obligations.FieldLaws :=
  ⟨fun _ => rfl, fun a b => gmulBelow_eq_foldl a b 8, gmul_comm, gmul_assoc, gmul_xor_right,
    fun a => ⟨gmul_one_right a, gmul_zero_right a⟩,
    fun a h => ⟨fieldInverse a, gmul_fieldInverse a h, fun _ hc => inverse_unique (gmul_fieldInverse a h) hc⟩⟩

/-! ### The byte substitutions: facts of the two tables, read off their 256 entries -/

/-- SBOX is the affine map on the inverse (R123). -/
theorem sbox_eq_affine : ∀ a : Byte, sbox a =
    fieldInverse a ^^^ rotl8 (fieldInverse a) 1 ^^^ rotl8 (fieldInverse a) 2 ^^^ rotl8 (fieldInverse a) 3 ^^^
      rotl8 (fieldInverse a) 4 ^^^ 0x63 := by
  decide +kernel

@[simp] theorem invSbox_sbox : ∀ a : Byte, invSbox (sbox a) = a := by decide +kernel

@[simp] theorem sbox_invSbox : ∀ a : Byte, sbox (invSbox a) = a := by decide +kernel

theorem sbox_ne_self : ∀ a : Byte, sbox a ≠ a := by decide +kernel

theorem sbox_injective : Function.Injective sbox := Function.LeftInverse.injective invSbox_sbox

@[simp] theorem block_map_get (f : Byte → Byte) (s : Block) (i : Fin 16) : (s.map f).get i = f (s.get i) :=
  ofFn_get (fun i => f (s.get i)) i

/-- Settles O42: the table is the affine map on `fieldInverse`, and INV_SBOX makes it a bijection. -/
theorem sboxIsInverseThenAffine : Obligations.SboxIsInverseThenAffine := by
  refine ⟨fun a => ⟨fieldInverse a, ?_, gmul_fieldInverse a, sbox_eq_affine a⟩, fun _ _ h => sbox_injective h,
    fun b => ⟨invSbox b, sbox_invSbox b⟩, sbox_ne_self, by decide, by decide, block_map_get sbox⟩
  rintro rfl
  decide

/-- Settles O43: the two tables undo each other, and `Block.map` goes byte by byte. -/
theorem invSboxUndoesSbox : Obligations.InvSboxUndoesSbox :=
  ⟨fun a => ⟨invSbox_sbox a, sbox_invSbox a⟩, by decide, by decide, block_map_get invSbox⟩

@[simp] theorem invSubBytes_subBytes (s : Block) : invSubBytes (subBytes s) = s :=
  block_ext fun i => by rw [invSubBytes, subBytes, block_map_get, block_map_get, invSbox_sbox]

@[simp] theorem subBytes_invSubBytes (s : Block) : subBytes (invSubBytes s) = s :=
  block_ext fun i => by rw [invSubBytes, subBytes, block_map_get, block_map_get, sbox_invSbox]

/-! ### The row shifts -/

/-- Byte `i` stands in row `i mod 4` of column `i / 4` (R121, R125). -/
theorem shiftRows_get (s : Block) (i : Fin 16) :
    (shiftRows s).get i = s.get ⟨i.val % 4 + 4 * ((i.val / 4 + i.val % 4) % 4), by omega⟩ := by
  fin_cases i <;> rfl

theorem invShiftRows_get (s : Block) (i : Fin 16) :
    (invShiftRows s).get i = s.get ⟨i.val % 4 + 4 * ((i.val / 4 + 4 - i.val % 4) % 4), by omega⟩ := by
  fin_cases i <;> rfl

@[simp] theorem invShiftRows_shiftRows (s : Block) : invShiftRows (shiftRows s) = s := rfl

@[simp] theorem shiftRows_invShiftRows (s : Block) : shiftRows (invShiftRows s) = s := rfl

/-- Settles O44: the place of each byte by its index, row and column read off it. -/
theorem rowShiftsFollowFormula : Obligations.RowShiftsFollowFormula := by
  refine fun s => ⟨fun r c i j hi hj => ?_, fun r c i j hi hj => ?_, invShiftRows_shiftRows s⟩
  · exact (shiftRows_get s i).trans (congrArg s.get (Fin.ext (by simp only; omega)))
  · exact (invShiftRows_get s i).trans (congrArg s.get (Fin.ext (by simp only; omega)))

/-! ### The column mixes -/

theorem gmul_two (a : Byte) : gmul 0x02 a = xtime a := by
  rw [show (0x02 : Byte) = xtime 0x01 from rfl, gmul_xtime_left, gmul_one_left]

theorem gmul_three (a : Byte) : gmul 0x03 a = xtime a ^^^ a := by
  rw [show (0x03 : Byte) = 0x02 ^^^ 0x01 from rfl, gmul_xor_left, gmul_two, gmul_one_left]

/-- The coefficients of R129 as polynomials in `x`. -/
theorem gmul_invMix_coefficients (a : Byte) :
    gmul a 0x0e = xtime a ^^^ xtime (xtime a) ^^^ xtime (xtime (xtime a)) ∧
    gmul a 0x0b = a ^^^ xtime a ^^^ xtime (xtime (xtime a)) ∧
    gmul a 0x0d = a ^^^ xtime (xtime a) ^^^ xtime (xtime (xtime a)) ∧
    gmul a 0x09 = a ^^^ xtime (xtime (xtime a)) := by
  simp [gmul, gmulBelow, xtimePow]

/-- Row 0 of MixColumns on a column; row `r` is the same sum read from row `r` on (R128). -/
def mixRow (a b c d : Byte) : Byte := xtime (a ^^^ b) ^^^ b ^^^ c ^^^ d

/-- Row 0 of MixColumns taken twice: the even powers alone are left. -/
def mixRowTwice (a c : Byte) : Byte := a ^^^ xtime (xtime (a ^^^ c))

/-- MixColumns taken twice on one column. -/
def mixColumnTwice (c : Column) : Column :=
  ⟨mixRowTwice c.r0 c.r2, mixRowTwice c.r1 c.r3, mixRowTwice c.r2 c.r0, mixRowTwice c.r3 c.r1⟩

theorem mixColumn_eq_mixRow (a b c d : Byte) : mixColumn ⟨a, b, c, d⟩ =
    ⟨mixRow a b c d, mixRow b c d a, mixRow c d a b, mixRow d a b c⟩ := by
  simp only [mixColumn, mixRow, xtime_xor, Column.mk.injEq]
  exact ⟨by ac_rfl, by ac_rfl, by ac_rfl, by ac_rfl⟩

theorem mixRow_mixRow (a b c d : Byte) :
    mixRow (mixRow a b c d) (mixRow b c d a) (mixRow c d a b) (mixRow d a b c) = mixRowTwice a c := by
  simp only [mixRow, mixRowTwice, xtime_xor, BitVec.xor_assoc, BitVec.xor_comm, byte_xor_left_comm, xor_cancel_left]

theorem mixRowTwice_mixRowTwice (a c : Byte) : mixRowTwice (mixRowTwice a c) (mixRowTwice c a) = a := by
  simp only [mixRowTwice, xtime_xor, BitVec.xor_assoc, BitVec.xor_comm, byte_xor_left_comm, BitVec.xor_self,
    BitVec.xor_zero, BitVec.zero_xor]

/-- Row 0 of InvMixColumns is that of MixColumns taken three times. -/
theorem mixRow_mixRowTwice (a b c d : Byte) :
    mixRow (mixRowTwice a c) (mixRowTwice b d) (mixRowTwice c a) (mixRowTwice d b) =
      gmul a 0x0e ^^^ gmul b 0x0b ^^^ gmul c 0x0d ^^^ gmul d 0x09 := by
  simp only [gmul_invMix_coefficients, mixRow, mixRowTwice, xtime_xor, BitVec.xor_assoc, BitVec.xor_comm,
    byte_xor_left_comm, xor_cancel_left]

theorem mixColumn_mixColumn (c : Column) : mixColumn (mixColumn c) = mixColumnTwice c := by
  cases c
  simp only [mixColumn_eq_mixRow, mixRow_mixRow, mixColumnTwice]

theorem mixColumnTwice_mixColumnTwice (c : Column) : mixColumnTwice (mixColumnTwice c) = c := by
  simp only [mixColumnTwice, mixRowTwice_mixRowTwice]

theorem invMixColumn_eq_mixColumn (c : Column) : invMixColumn c = mixColumn (mixColumnTwice c) := by
  rw [mixColumnTwice, mixColumn_eq_mixRow]
  simp only [invMixColumn, mixRow_mixRowTwice, Column.mk.injEq]
  exact ⟨trivial, by ac_rfl, by ac_rfl, by ac_rfl⟩

theorem invMixColumn_mixColumn (c : Column) : invMixColumn (mixColumn c) = c := by
  rw [invMixColumn_eq_mixColumn, ← mixColumn_mixColumn, mixColumn_mixColumn, mixColumn_mixColumn,
    mixColumnTwice_mixColumnTwice]

theorem mixColumn_invMixColumn (c : Column) : mixColumn (invMixColumn c) = c := by
  rw [invMixColumn_eq_mixColumn, mixColumn_mixColumn, mixColumnTwice_mixColumnTwice]

@[simp] theorem invMixColumns_mixColumns (s : Block) : invMixColumns (mixColumns s) = s := by
  simp only [invMixColumns, mixColumns, invMixColumn_mixColumn]

@[simp] theorem mixColumns_invMixColumns (s : Block) : mixColumns (invMixColumns s) = s := by
  simp only [invMixColumns, mixColumns, mixColumn_invMixColumn]

theorem mixColumn_of_equal (a : Byte) : mixColumn ⟨a, a, a, a⟩ = ⟨a, a, a, a⟩ := by
  have h : mixRow a a a a = a := by simp [mixRow]
  rw [mixColumn_eq_mixRow, h]

/-- InvMixColumns with its coefficients on the left, as R129 writes them. -/
theorem invMixColumn_eq_gmul (c : Column) : invMixColumn c =
    ⟨gmul 0x0e c.r0 ^^^ gmul 0x0b c.r1 ^^^ gmul 0x0d c.r2 ^^^ gmul 0x09 c.r3,
     gmul 0x09 c.r0 ^^^ gmul 0x0e c.r1 ^^^ gmul 0x0b c.r2 ^^^ gmul 0x0d c.r3,
     gmul 0x0d c.r0 ^^^ gmul 0x09 c.r1 ^^^ gmul 0x0e c.r2 ^^^ gmul 0x0b c.r3,
     gmul 0x0b c.r0 ^^^ gmul 0x0d c.r1 ^^^ gmul 0x09 c.r2 ^^^ gmul 0x0e c.r3⟩ := by
  simp only [invMixColumn, gmul_comm c.r0, gmul_comm c.r1, gmul_comm c.r2, gmul_comm c.r3]

/-- Settles O45: the coefficients by `gmul_two` and `gmul_three`; InvMixColumns is MixColumns three times, and four times
is none. -/
theorem columnMixesFollowFormula : Obligations.ColumnMixesFollowFormula := by
  refine ⟨fun a => ⟨gmul_two a, gmul_three a, mixColumn_of_equal a⟩, fun c => ?_, invMixColumn_eq_gmul,
    fun s => ⟨rfl, rfl, invMixColumns_mixColumns s⟩⟩
  simp only [gmul_two, gmul_three, mixColumn]

end Sys2Proof.Machine
end

section
/-! PROOFS. The AES unit (40_aes128_cbc.md): the round keys, and the block cipher in both directions. -/

namespace Sys2Proof.Machine

/-! ### The round key addition and the key expansion -/

@[simp] theorem block_xor_get (s t : Block) (i : Fin 16) : (s.xor t).get i = s.get i ^^^ t.get i :=
  ofFn_get (fun i => s.get i ^^^ t.get i) i

@[simp] theorem block_xor_xor (s t : Block) : (s.xor t).xor t = s :=
  block_ext fun i => by rw [block_xor_get, block_xor_get, xor_cancel_right]

/-- Byte `r` of word `4n + c` is byte `r + 4c` of round key `n` (R130). -/
theorem roundKey_get (w : List Column) (n : Nat) (i : Fin 16) :
    (roundKey w n).get i = (w.getD (4 * n + i.val / 4) default).toBytes.getD (i.val % 4) 0x00 := by
  fin_cases i <;> rfl

theorem roundKey_toBytes (w : List Column) (n : Nat) : (roundKey w n).toBytes =
    (w.getD (4 * n) default).toBytes ++ (w.getD (4 * n + 1) default).toBytes ++ (w.getD (4 * n + 2) default).toBytes ++
      (w.getD (4 * n + 3) default).toBytes := rfl

@[simp] theorem addRoundKey_addRoundKey (w : List Column) (n : Nat) (s : Block) :
    addRoundKey w n (addRoundKey w n s) = s := block_xor_xor s (roundKey w n)

theorem expandKey_length (w : List Column) (n : Nat) : (expandKey w n).length = w.length + n := by
  induction n generalizing w with
  | zero => rfl
  | succ n ih => rw [expandKey, ih, List.length_append, List.length_singleton]; omega

theorem isPrefix_expandKey (w : List Column) (n : Nat) : w <+: expandKey w n := by
  induction n generalizing w with
  | zero => exact List.prefix_rfl
  | succ n ih => exact (List.prefix_append w _).trans (ih _)

/-- The words an expanded key starts with keep their places in it. -/
theorem getD_of_isPrefix {v w : List Column} (h : v <+: w) {i : Nat} (hi : i < v.length) :
    w.getD i default = v.getD i default := by
  obtain ⟨u, rfl⟩ := h
  rw [List.getD_append _ _ _ _ hi]

/-- Each word beyond the first ones is `nextKeyWord` of all the words before it. -/
theorem expandKey_getD {w : List Column} {n i : Nat} (hi : w.length ≤ i) (hn : i < w.length + n) :
    (expandKey w n).getD i default = nextKeyWord ((expandKey w n).take i) := by
  induction n generalizing w with
  | zero => omega
  | succ n ih =>
    have length : (w ++ [nextKeyWord w]).length = w.length + 1 := List.length_append
    obtain rfl | later := hi.eq_or_lt
    · rw [expandKey, getD_of_isPrefix (isPrefix_expandKey (w ++ [nextKeyWord w]) n) (by omega), ← expandKey,
        ← List.prefix_iff_eq_take.1 (isPrefix_expandKey w (n + 1))]
      simp
    · exact ih (w := w ++ [nextKeyWord w]) (by omega) (by omega)

theorem roundConstant_eq : ∀ j < 11, 1 ≤ j →
    roundConstant j = [0x01, 0x02, 0x04, 0x08, 0x10, 0x20, 0x40, 0x80, 0x1b, 0x36].getD (j - 1) 0x00 := by decide

/-- `nextKeyWord` on the first `i` words of an expanded key, for `i` the number of the word (R127). -/
theorem nextKeyWord_take {w : List Column} {i : Nat} (h4 : 4 ≤ i) (hi : i ≤ w.length) :
    nextKeyWord (w.take i) = (w.getD (i - 4) default).xor
      (if i % 4 = 0 then (subWord (rotWord (w.getD (i - 1) default))).xor ⟨roundConstant (i / 4), 0, 0, 0⟩
        else w.getD (i - 1) default) := by
  have length : (w.take i).length = i := List.length_take_of_le hi
  have before (j : Nat) (hj : j < i) : (w.take i).getD j default = w.getD j default :=
    (getD_of_isPrefix (List.take_prefix i w) (by omega)).symm
  simp only [nextKeyWord, length]
  rw [before _ (by omega), before _ (by omega)]

theorem keyExpansion_length (k : Block) : (keyExpansion k).length = 44 := expandKey_length _ 40

theorem keyExpansion_first (k : Block) {i : Nat} (hi : i < 4) :
    (keyExpansion k).getD i default = [k.c0, k.c1, k.c2, k.c3].getD i default :=
  getD_of_isPrefix (isPrefix_expandKey _ 40) hi

theorem keyExpansion_recurrence (k : Block) {i : Nat} (h4 : 4 ≤ i) (hi : i < 44) :
    (keyExpansion k).getD i default = nextKeyWord ((keyExpansion k).take i) := expandKey_getD h4 hi

theorem roundKey_zero (k : Block) : roundKey (keyExpansion k) 0 = k := by
  simp only [roundKey, keyExpansion_first, Nat.reduceMul, Nat.reduceAdd, Nat.reduceLT]
  rfl

/-- Settles O46: the key's four words, then `nextKeyWord` of the words before, the round constants read off. -/
theorem keyExpansionRecurrence : Obligations.KeyExpansionRecurrence := by
  refine ⟨fun _ _ _ _ => ⟨rfl, rfl⟩, fun k => ⟨keyExpansion_length k, fun i hi => ?_, fun i h4 hi => ?_,
    fun n _ => roundKey_toBytes (keyExpansion k) n⟩⟩
  · rw [keyExpansion_first k hi]
    interval_cases i <;> rfl
  · have length := keyExpansion_length k
    rw [keyExpansion_recurrence k h4 hi, nextKeyWord_take h4 (by omega), roundConstant_eq (i / 4) (by omega) (by omega)]

/-- Settles O47: AddRoundKey byte by byte, and the first four words of the expanded key. -/
theorem roundKeyAdditionFollowsFormula : Obligations.RoundKeyAdditionFollowsFormula := by
  refine ⟨fun w n s => ⟨fun r c i hi => ?_, addRoundKey_addRoundKey w n s⟩, roundKey_zero⟩
  have col : i.val / 4 = c.val := by omega
  have row : i.val % 4 = r.val := by omega
  rw [addRoundKey, block_xor_get, roundKey_get, col, row]

/-! ### The block cipher -/

/-- The state of the inverse cipher after `m` of its rounds `n` down to 1 (R132). -/
def decRoundsState (w : List Column) (n : Nat) (s : Block) : Nat → Block
  | 0 => s
  | m + 1 => invMixColumns (addRoundKey w (n - m) (invSubBytes (invShiftRows (decRoundsState w n s m))))

/-- The rounds that are left take the state after `m` of them to the end. -/
theorem decRounds_decRoundsState (w : List Column) (s : Block) {n m : Nat} (h : m ≤ n) :
    decRounds w (n - m) (decRoundsState w n s m) = decRounds w n s := by
  induction m with
  | zero => rfl
  | succ m ih =>
    rw [← ih (by omega), show n - m = n - (m + 1) + 1 by omega, decRounds, decRoundsState,
      show n - m = n - (m + 1) + 1 by omega]

theorem decRounds_eq (w : List Column) (n : Nat) (s : Block) : decRounds w n s = decRoundsState w n s n := by
  rw [← decRounds_decRoundsState w s le_rfl, Nat.sub_self, decRounds]

/-- Settles O48: the states after each round, `encRounds` forwards and `decRoundsState` backwards. -/
theorem blockCipherFollowsRounds : Obligations.BlockCipherFollowsRounds := by
  refine fun k b => ⟨⟨fun n => encRounds (keyExpansion k) n (addRoundKey (keyExpansion k) 0 b), rfl, fun n h1 _ => ?_, rfl⟩,
    fun n => decRoundsState (keyExpansion k) 9 (addRoundKey (keyExpansion k) 10 b) (10 - n), rfl, fun n h1 h9 => ?_, ?_⟩
  · obtain ⟨n, rfl⟩ := Nat.exists_eq_add_of_le' h1
    rfl
  · have round : 10 - n = 10 - (n + 1) + 1 := by omega
    have key : 9 - (10 - (n + 1)) = n := by omega
    simp only [round, decRoundsState, key]
  · rw [aesDecBlock, decBlockWith, decRounds_eq]

/-- The rounds of the inverse cipher take those of the cipher off again; SubBytes and ShiftRows of the next round stand before. -/
theorem decRounds_encRounds (w : List Column) (n : Nat) (s : Block) :
    decRounds w n (shiftRows (subBytes (encRounds w n s))) = shiftRows (subBytes s) := by
  induction n with
  | zero => rfl
  | succ n ih => simp only [decRounds, encRounds, invShiftRows_shiftRows, invSubBytes_subBytes, addRoundKey_addRoundKey,
      invMixColumns_mixColumns, ih]

/-- The rounds of the cipher take those of the inverse cipher off again. -/
theorem encRounds_decRounds (w : List Column) (n : Nat) (s : Block) :
    encRounds w n (invSubBytes (invShiftRows (decRounds w n s))) = invSubBytes (invShiftRows s) := by
  induction n generalizing s with
  | zero => rfl
  | succ n ih => simp only [decRounds, encRounds, ih, subBytes_invSubBytes, shiftRows_invShiftRows, mixColumns_invMixColumns,
      addRoundKey_addRoundKey]

@[simp] theorem aesDecBlock_aesEncBlock (k b : Block) : aesDecBlock k (aesEncBlock k b) = b := by
  simp only [aesDecBlock, aesEncBlock, decBlockWith, encBlockWith, addRoundKey_addRoundKey, decRounds_encRounds,
    invShiftRows_shiftRows, invSubBytes_subBytes]

@[simp] theorem aesEncBlock_aesDecBlock (k b : Block) : aesEncBlock k (aesDecBlock k b) = b := by
  simp only [aesDecBlock, aesEncBlock, decBlockWith, encBlockWith, addRoundKey_addRoundKey, encRounds_decRounds,
    subBytes_invSubBytes, shiftRows_invShiftRows]

/-- Settles O49: every step of a round is undone by its inverse, so the rounds are, and the two ciphers. -/
theorem blockCipherIsBijective : Obligations.BlockCipherIsBijective :=
  fun k b => ⟨aesDecBlock_aesEncBlock k b, aesEncBlock_aesDecBlock k b⟩

end Sys2Proof.Machine
end

section
/-! PROOFS. Cipher-block chaining and the block padding (40_aes128_cbc.md). -/

namespace Sys2Proof.Machine

/-! ### Chaining -/

/-- Bytes `16j` to `16j + 15` of the bytes of blocks are those of block `j`. -/
theorem slice_ofBlocks {bs : List Block} {j : Nat} (hj : j < bs.length) :
    slice (ofBlocks bs) (16 * j) (16 * j + 16) = (bs[j]).toBytes := by
  induction bs generalizing j with
  | nil => cases hj
  | cons b bs ih =>
    cases j with
    | zero => rfl
    | succ j =>
      rw [List.getElem_cons_succ, ← ih (Nat.lt_of_succ_lt_succ hj), ofBlocks_cons, slice, slice,
        show 16 * (j + 1) + 16 = b.toBytes.length + (16 * j + 16) by rw [toBytes_length]; omega,
        show 16 * (j + 1) = b.toBytes.length + 16 * j by rw [toBytes_length]; omega,
        List.take_length_add_append, List.drop_length_add_append]

/-- The block before block `j` in a chain that starts with the IV (R141, R142). -/
theorem chainBlock_eq (iv : Block) {cs : List Block} {j : Nat} (hj : j < cs.length) :
    (if j = 0 then iv else Block.ofBytes (slice (ofBlocks cs) (16 * (j - 1)) (16 * (j - 1) + 16))) =
      (iv :: cs)[j]'(Nat.lt_succ_of_lt hj) := by
  cases j with
  | zero => rfl
  | succ j =>
    rw [if_neg j.succ_ne_zero, Nat.add_sub_cancel, slice_ofBlocks (Nat.lt_of_succ_lt hj), ofBytes_toBytes,
      List.getElem_cons_succ]

/-- The two chaining equations on the blocks, the chain being the IV and the ciphertext. -/
theorem cbcEncBlocks_getElem (k iv : Block) (ms : List Block) (j : Nat) (hj : j < ms.length) :
    (cbcEncBlocks k iv ms)[j]'(by simpa using hj) =
      aesEncBlock k (ms[j].xor ((iv :: cbcEncBlocks k iv ms)[j]'(by simp; omega))) := by
  induction ms generalizing iv j with
  | nil => cases hj
  | cons m ms ih =>
    cases j with
    | zero => rfl
    | succ j => exact ih _ j (Nat.lt_of_succ_lt_succ hj)

theorem cbcDecBlocks_getElem (k iv : Block) (cs : List Block) (j : Nat) (hj : j < cs.length) :
    (cbcDecBlocks k iv cs)[j]'(by simpa using hj) =
      (aesDecBlock k cs[j]).xor ((iv :: cs)[j]'(Nat.lt_succ_of_lt hj)) := by
  induction cs generalizing iv j with
  | nil => cases hj
  | cons c cs ih =>
    cases j with
    | zero => rfl
    | succ j => exact ih _ j (Nat.lt_of_succ_lt_succ hj)

theorem cbcDecBlocks_cbcEncBlocks (k iv : Block) (ms : List Block) : cbcDecBlocks k iv (cbcEncBlocks k iv ms) = ms := by
  induction ms generalizing iv with
  | nil => rfl
  | cons m ms ih => rw [cbcEncBlocks, cbcDecBlocks, ih, aesDecBlock_aesEncBlock, block_xor_xor]

theorem cbcEncrypt_ofBlocks (k iv : Block) (ms : List Block) :
    cbcEncrypt k iv (ofBlocks ms) = ofBlocks (cbcEncBlocks k iv ms) := by rw [cbcEncrypt, toBlocks_ofBlocks]

theorem cbcDecrypt_ofBlocks (k iv : Block) (cs : List Block) :
    cbcDecrypt k iv (ofBlocks cs) = ofBlocks (cbcDecBlocks k iv cs) := by rw [cbcDecrypt, toBlocks_ofBlocks]

/-- Settles O50: a block-aligned message is the bytes of its blocks, and on those the chain is `cbcEncBlocks_getElem` and
`cbcDecBlocks_getElem`. -/
theorem cbcChainsBlocks : Obligations.CbcChainsBlocks := by
  intro k iv m aligned
  obtain ⟨ms, rfl⟩ : ∃ ms, m = ofBlocks ms := ⟨toBlocks m, (ofBlocks_toBlocks aligned).symm⟩
  rw [cbcEncrypt_ofBlocks, cbcDecrypt_ofBlocks]
  refine ⟨by simp, by simp, fun j hj => ?_⟩
  replace hj : j < ms.length := by rw [ofBlocks_length] at hj; omega
  have encLength : j < (cbcEncBlocks k iv ms).length := by simpa using hj
  have decLength : j < (cbcDecBlocks k iv ms).length := by simpa using hj
  rw [slice_ofBlocks hj, slice_ofBlocks encLength, slice_ofBlocks decLength, chainBlock_eq iv encLength,
    chainBlock_eq iv hj, ofBytes_toBytes, cbcEncBlocks_getElem k iv ms j hj, cbcDecBlocks_getElem k iv ms j hj]
  exact ⟨rfl, rfl⟩

/-- Settles O51: block by block the decipher takes the chain off again. -/
theorem cbcDecryptUndoesEncrypt : Obligations.CbcDecryptUndoesEncrypt := by
  intro k iv m aligned
  rw [cbcEncrypt, cbcDecrypt_ofBlocks, cbcDecBlocks_cbcEncBlocks, ofBlocks_toBlocks aligned]

/-! ### The padding -/

/-- `n` of R144 as a byte: it is at most 16, so the byte is `n` itself. -/
theorem padByte_toNat (l : Nat) : (BitVec.ofNat 8 (padLength l)).toNat = padLength l := by
  have bounds := padLength_bounds l
  rw [BitVec.toNat_ofNat]
  omega

theorem pad_take (p : List Byte) : (pad p).take p.length = p := List.take_left

theorem pad_drop (p : List Byte) :
    (pad p).drop p.length = List.replicate (padLength p.length) (BitVec.ofNat 8 (padLength p.length)) := List.drop_left

/-- Settles O52: the pad bytes are a replicate of the byte of value `n`. -/
theorem padAppendsPadBytes : Obligations.PadAppendsPadBytes := by
  intro p
  obtain ⟨low, high⟩ := padLength_bounds p.length
  refine ⟨padLength p.length, rfl, low, high, pad_take p, fun b hb => ?_, ?_, ?_⟩
  · rw [pad_drop] at hb
    rw [List.eq_of_mem_replicate hb, padByte_toNat]
  · rw [pad, List.length_append, List.length_replicate]
  · rw [pad_length]
    omega

/-- Unpad takes off `b` bytes of value `b`, for `b` from 1 to 16 (R145). -/
theorem unpad_append_replicate (p : List Byte) {b : Byte} (low : 1 ≤ b.toNat) (high : b.toNat ≤ 16) :
    unpad (p ++ List.replicate b.toNat b) = some p := by
  have last : (p ++ List.replicate b.toNat b).getLastD 0 = b := by
    rw [List.getLastD_eq_getLast?, List.getLast?_append, List.getLast?_replicate, if_neg (by omega)]
    rfl
  have length : (p ++ List.replicate b.toNat b).length - b.toNat = p.length := by simp
  simp only [unpad, last, length, List.drop_left, List.take_left]
  rw [if_neg (by omega), if_neg (by simp)]

/-- What Unpad accepts, of a byte string of at least one block, ends in `b` bytes of value `b`, `b` from 1 to 16 (R145). -/
theorem eq_append_replicate_of_unpad {m p : List Byte} (block : 16 ≤ m.length) (h : unpad m = some p) :
    ∃ b : Byte, 1 ≤ b.toNat ∧ b.toNat ≤ 16 ∧ m = p ++ List.replicate b.toNat b := by
  simp only [unpad] at h
  generalize m.getLastD 0 = b at h
  split_ifs at h with range same
  cases h
  refine ⟨b, by omega, by omega, ?_⟩
  have tail : m.drop (m.length - b.toNat) = List.replicate b.toNat b := by
    refine List.eq_replicate_iff.2 ⟨by rw [List.length_drop]; omega, fun c hc => ?_⟩
    simpa using fun ne => same (List.any_eq_true.2 ⟨c, hc, ne⟩)
  rw [← tail, List.take_append_drop]

/-- Pad appends the one number of bytes from 1 to 16 that aligns the length (R144). -/
theorem pad_eq_append_replicate {p : List Byte} {b : Byte} (low : 1 ≤ b.toNat) (high : b.toNat ≤ 16)
    (aligned : (p.length + b.toNat) % 16 = 0) : pad p = p ++ List.replicate b.toNat b := by
  have n : padLength p.length = b.toNat := by rw [padLength]; omega
  rw [pad, n, BitVec.ofNat_toNat, BitVec.setWidth_eq]

theorem unpad_pad (p : List Byte) : unpad (pad p) = some p := by
  obtain ⟨low, high⟩ := padLength_bounds p.length
  have n := padByte_toNat p.length
  have h := unpad_append_replicate p (b := BitVec.ofNat 8 (padLength p.length)) (by omega) (by omega)
  rwa [n] at h

/-- Settles O53: what Unpad accepts ends in its pad bytes, and on a block-aligned string their number is the one Pad appends. -/
theorem unpadAcceptsExactlyPadded : Obligations.UnpadAcceptsExactlyPadded := by
  refine ⟨unpad_pad, fun m p nonempty aligned => ⟨fun h => ?_, ?_⟩⟩
  · have positive : 0 < m.length := List.length_pos_iff.2 nonempty
    obtain ⟨b, low, high, rfl⟩ := eq_append_replicate_of_unpad (by omega) h
    rw [List.length_append, List.length_replicate] at aligned
    exact (pad_eq_append_replicate low high aligned).symm
  · rintro rfl
    exact unpad_pad p

end Sys2Proof.Machine
end

section
/-! PROOFS. The SHA unit and the hex encoder (41_sha256_hex.md). -/

namespace Sys2Proof.Machine

/-! ### Big-endian bytes -/

theorem toNat_append_byte {w : Nat} (x : BitVec w) (b : Byte) : (x ++ b).toNat = x.toNat * 2 ^ 8 + b.toNat := by
  rw [BitVec.toNat_append, ← Nat.shiftLeft_add_eq_or_of_lt b.isLt, Nat.shiftLeft_eq]

/-- `wordOfBytes` reads its four bytes big-endian (R166). -/
theorem wordOfBytes_toNat (b0 b1 b2 b3 : Byte) :
    (wordOfBytes b0 b1 b2 b3).toNat = b0.toNat * 2 ^ 24 + b1.toNat * 2 ^ 16 + b2.toNat * 2 ^ 8 + b3.toNat := by
  simp only [wordOfBytes, toNat_append_byte]
  omega

/-- One more byte of a number, below those read so far. -/
theorem shiftRight_mul_add_byte (v k : Nat) : (v >>> (k + 8)) * 256 + v >>> k % 256 = v >>> k := by
  rw [Nat.shiftRight_add, Nat.shiftRight_eq_div_pow (v >>> k)]
  exact Nat.div_add_mod' _ _

@[simp] theorem bigEndian_wordToBytes (w : Word) : bigEndian (wordToBytes w) = w.toNat := by
  have top : w.toNat >>> 24 % 256 = w.toNat >>> 24 :=
    Nat.mod_eq_of_lt (by rw [Nat.shiftRight_eq_div_pow]; have bound := w.isLt; omega)
  simpa [bigEndian, wordToBytes, top, shiftRight_mul_add_byte] using shiftRight_mul_add_byte w.toNat 0

theorem bigEndian_be64 {v : Nat} (h : v < 2 ^ 64) : bigEndian (be64 v) = v := by
  have top : v >>> 56 % 256 = v >>> 56 := Nat.mod_eq_of_lt (by rw [Nat.shiftRight_eq_div_pow]; omega)
  have number : (BitVec.ofNat 64 v).toNat = v := by rw [BitVec.toNat_ofNat, Nat.mod_eq_of_lt h]
  simpa [bigEndian, be64, number, top, shiftRight_mul_add_byte] using shiftRight_mul_add_byte v 0

/-- Settles O58: word `i` stands at bytes `4i` to `4i + 3`, and `wordToBytes` writes it big-endian. -/
theorem digestIsBigEndian : Obligations.DigestIsBigEndian := by
  intro h
  refine ⟨digestBytes_length h, ?_⟩
  have words : (List.range 8).map (fun i => bigEndian (slice (digestBytes h) (4 * i) (4 * i + 4))) =
      [h.a, h.b, h.c, h.d, h.e, h.f, h.g, h.h].map fun w => bigEndian (wordToBytes w) := rfl
  simp only [words, bigEndian_wordToBytes]

/-! ### The word functions and the constants -/

theorem rotr_getLsbD (x : Word) {n i : Nat} (hn : n < 32) (hi : i < 32) :
    (rotr x n).getLsbD i = x.getLsbD ((i + n) % 32) := by
  rw [rotr, BitVec.getLsbD_or, BitVec.getLsbD_ushiftRight, BitVec.getLsbD_shiftLeft]
  by_cases inside : i + n < 32
  · have low : i < 32 - n := by omega
    simp [low, Nat.mod_eq_of_lt inside, Nat.add_comm n i]
  · have wrapped : (i + n) % 32 = i - (32 - n) := by omega
    have beyond : x.getLsbD (n + i) = false := BitVec.getLsbD_of_ge _ _ (by omega)
    have high : ¬i < 32 - n := by omega
    simp [hi, high, wrapped, beyond]

/-- The first 32 bits of the fractional part of the `n`-th root of `p` are `k`, the whole part being below 32: `c` and `k` together are
the whole part of the root times `2 ^ 32` (R162, R163). -/
def IsRootFraction (n p : Nat) (k : Word) : Prop :=
  ∃ c < 32, (c * 2 ^ 32 + k.toNat) ^ n ≤ p * 2 ^ (32 * n) ∧ p * 2 ^ (32 * n) < (c * 2 ^ 32 + k.toNat + 1) ^ n

theorem IsRootFraction.exists_root {n p : Nat} {k : Word} (h : IsRootFraction n p k) :
    ∃ r : Nat, r ^ n ≤ p * 2 ^ (32 * n) ∧ p * 2 ^ (32 * n) < (r + 1) ^ n ∧ k = BitVec.ofNat 32 r := by
  obtain ⟨c, -, lower, upper⟩ := h
  refine ⟨c * 2 ^ 32 + k.toNat, lower, upper, BitVec.eq_of_toNat_eq ?_⟩
  have bound := k.isLt
  rw [BitVec.toNat_ofNat]
  omega

/-- The 64 primes of R162, the first eight of which are those of R163. -/
theorem primesBelow_312 : primesBelow 312 =
    [2, 3, 5, 7, 11, 13, 17, 19, 23, 29, 31, 37, 41, 43, 47, 53, 59, 61, 67, 71, 73, 79, 83, 89, 97, 101, 103, 107, 109, 113, 127,
      131, 137, 139, 149, 151, 157, 163, 167, 173, 179, 181, 191, 193, 197, 199, 211, 223, 227, 229, 233, 239, 241, 251, 257, 263,
      269, 271, 277, 281, 283, 293, 307, 311] := by decide +kernel

theorem shaK_isRootFraction : ∀ t < 64, IsRootFraction 3 ((primesBelow 312).getD t 0) (shaK.getD t 0) := by
  rw [primesBelow_312]
  unfold IsRootFraction
  decide +kernel

theorem shaInit_isRootFraction : ∀ i < 8, IsRootFraction 2 ((primesBelow 20).getD i 0)
    ([shaInit.a, shaInit.b, shaInit.c, shaInit.d, shaInit.e, shaInit.f, shaInit.g, shaInit.h].getD i 0) := by
  unfold IsRootFraction
  decide +kernel

theorem shaK_length : shaK.length = 64 := rfl

/-- Settles O54: the rotation by its two cases, the sigma functions as `xorRotr` lists them, the constants checked against the roots. -/
theorem shaWordFunctionsAndConstants : Obligations.ShaWordFunctionsAndConstants := by
  refine ⟨fun x n i _ hn hi => rotr_getLsbD x hn hi, fun x y z i hi => ⟨?_, ?_⟩, fun x => ?_, shaK_length,
    by rw [primesBelow_312]; rfl, fun t ht => (shaK_isRootFraction t ht).exists_root⟩
  · simp [ch, hi]
  · simp [maj]
  · simp [bsig0, bsig1, ssig0, ssig1, xorRotr, BitVec.xor_assoc]

/-! ### The message schedule -/

/-- The words `w` are the first ones of a message schedule of the block `b` (R167). -/
structure FollowsSchedule (b : List Byte) (w : List Word) : Prop where
  enough : 16 ≤ w.length
  first : ∀ t < 16, w.getD t 0 = blockWord b t
  later : ∀ t, 16 ≤ t → t < w.length → w.getD t 0 =
    ssig1 (w.getD (t - 2) 0) + w.getD (t - 7) 0 + ssig0 (w.getD (t - 15) 0) + w.getD (t - 16) 0

theorem followsSchedule_blockWords (b : List Byte) : FollowsSchedule b ((List.range 16).map (blockWord b)) where
  enough := by simp
  first t ht := by simp [ht]
  later t h16 ht := by
    rw [List.length_map, List.length_range] at ht
    omega

theorem FollowsSchedule.append_next {b : List Byte} {w : List Word} (h : FollowsSchedule b w) :
    FollowsSchedule b (w ++ [nextScheduleWord w]) := by
  have enough := h.enough
  have kept (t : Nat) (ht : t < w.length) : (w ++ [nextScheduleWord w]).getD t 0 = w.getD t 0 := List.getD_append _ _ _ _ ht
  refine ⟨?_, fun t ht => ?_, fun t h16 ht => ?_⟩
  · rw [List.length_append]
    omega
  · rw [kept t (by omega), h.first t ht]
  · rw [List.length_append, List.length_singleton] at ht
    rw [kept (t - 2) (by omega), kept (t - 7) (by omega), kept (t - 15) (by omega), kept (t - 16) (by omega)]
    obtain rfl | before := (Nat.lt_succ_iff.1 ht).eq_or_lt
    · simp [nextScheduleWord]
    · rw [kept t before, h.later t h16 before]

theorem FollowsSchedule.extend {b : List Byte} {w : List Word} (h : FollowsSchedule b w) (n : Nat) :
    FollowsSchedule b (extendSchedule w n) := by
  induction n generalizing w with
  | zero => exact h
  | succ n ih => exact ih h.append_next

theorem extendSchedule_length (w : List Word) (n : Nat) : (extendSchedule w n).length = w.length + n := by
  induction n generalizing w with
  | zero => rfl
  | succ n ih => rw [extendSchedule, ih, List.length_append, List.length_singleton]; omega

@[simp] theorem shaSchedule_length (b : List Byte) : (shaSchedule b).length = 64 := extendSchedule_length _ 48

theorem shaSchedule_follows (b : List Byte) : FollowsSchedule b (shaSchedule b) := (followsSchedule_blockWords b).extend 48

/-- Settles O57: appending the next word keeps the words of the block and the recurrence. -/
theorem shaScheduleRecurrence : Obligations.ShaScheduleRecurrence := by
  intro b
  obtain ⟨-, first, later⟩ := shaSchedule_follows b
  refine ⟨shaSchedule_length b, fun t ht => ?_, fun t h16 ht => later t h16 (by rwa [shaSchedule_length])⟩
  rw [first t ht, blockWord, wordOfBytes_toNat]

/-! ### The padding -/

/-- `shaZeros` is the least number of zero bytes that brings the length to 56 modulo 64 (R165). -/
theorem shaZeros_le {l j : Nat} (h : (l + 1 + j) % 64 = 56) : shaZeros l ≤ j := by
  rw [shaZeros]
  omega

theorem shaZeros_aligns (l : Nat) : (l + 1 + shaZeros l) % 64 = 56 := by
  rw [shaZeros]
  omega

@[simp] theorem shaPad_length (m : List Byte) : (shaPad m).length = 64 * ((m.length + 8) / 64 + 1) := by
  simp only [shaPad, List.length_append, List.length_singleton, List.length_replicate, be64_length, shaZeros]
  omega

/-- Settles O56: the parts of `shaPad`, with `shaZeros` zero bytes and the length in bits below 2^64. -/
theorem shaPaddingForm : Obligations.ShaPaddingForm := by
  intro m domain
  exact ⟨shaZeros m.length, be64 (8 * m.length), rfl, shaZeros_aligns _, fun _ => shaZeros_le, be64_length _,
    bigEndian_be64 (by omega), shaPad_length m⟩

/-! ### The rounds of a block and the chain over the blocks -/

/-- A fold over the first `i + 1` elements is one step after the fold over the first `i`. -/
theorem foldl_take_succ {α β : Type} (f : β → α → β) (init : β) {l : List α} {i : Nat} (hi : i < l.length) :
    (l.take (i + 1)).foldl f init = f ((l.take i).foldl f init) l[i] := by
  rw [List.take_succ_eq_append_getElem hi, List.foldl_append, List.foldl_cons, List.foldl_nil]

/-- The working variables before round `t` of a block (R168). -/
def roundState (h : HashState) (b : List Byte) (t : Nat) : HashState :=
  ((List.zip shaK (shaSchedule b)).take t).foldl shaRound h

@[simp] theorem roundState_zero (h : HashState) (b : List Byte) : roundState h b 0 = h := by simp [roundState]

theorem roundState_succ (h : HashState) (b : List Byte) {t : Nat} (ht : t < 64) :
    roundState h b (t + 1) = shaRound (roundState h b t) (shaK.getD t 0, (shaSchedule b).getD t 0) := by
  have key : t < shaK.length := ht
  have word : t < (shaSchedule b).length := by rwa [shaSchedule_length]
  have pair : t < (List.zip shaK (shaSchedule b)).length := by rw [List.length_zip]; omega
  rw [roundState, foldl_take_succ shaRound h pair, List.getElem_zip, List.getD_eq_getElem _ _ key, List.getD_eq_getElem _ _ word,
    roundState]

theorem shaCompress_eq_hashAdd (h : HashState) (b : List Byte) : shaCompress h b = hashAdd h (roundState h b 64) := by
  rw [shaCompress, roundState, List.take_of_length_le (by simp [shaK_length])]

/-- The hash value after the first `i` blocks of the padded message (R169). -/
def chainState (m : List Byte) (i : Nat) : HashState := ((shaBlocks (shaPad m)).take i).foldl shaCompress shaInit

@[simp] theorem chainState_zero (m : List Byte) : chainState m 0 = shaInit := by simp [chainState]

@[simp] theorem shaBlocks_length (p : List Byte) : (shaBlocks p).length = p.length / 64 := by simp [shaBlocks]

theorem shaBlocks_getElem {p : List Byte} {i : Nat} (hi : i < (shaBlocks p).length) :
    (shaBlocks p)[i] = slice p (64 * i) (64 * i + 64) := by
  simp [shaBlocks, slice, List.drop_take]

theorem chainState_succ {m : List Byte} {i : Nat} (hi : i < (shaPad m).length / 64) :
    chainState m (i + 1) = shaCompress (chainState m i) (slice (shaPad m) (64 * i) (64 * i + 64)) := by
  have block : i < (shaBlocks (shaPad m)).length := by rwa [shaBlocks_length]
  rw [chainState, foldl_take_succ shaCompress shaInit block, shaBlocks_getElem block, chainState]

theorem shaHash_eq_chainState (m : List Byte) : shaHash m = chainState m ((shaPad m).length / 64) := by
  rw [shaHash, chainState, List.take_of_length_le (by rw [shaBlocks_length])]

/-- Settles O55: the states between the rounds are `roundState`, those between the blocks `chainState`. -/
theorem shaHashFollowsRounds : Obligations.ShaHashFollowsRounds := by
  refine ⟨fun i hi => (shaInit_isRootFraction i hi).exists_root, fun h b => ⟨roundState h b, roundState_zero h b, fun t ht => ?_,
    shaCompress_eq_hashAdd h b⟩, fun m domain => ⟨chainState m, chainState_zero m, fun i => chainState_succ, ?_⟩⟩
  · refine ⟨_, _, rfl, rfl, ?_⟩
    rw [roundState_succ h b ht, shaRound]
  · rw [sha256, if_pos domain, shaHash_eq_chainState]

/-! ### The hex encoder and the hex check -/

theorem hexDigit_decimal : ∀ v < 10, (hexDigit v).toNat = 0x30 + v := by decide

theorem hexDigit_letter : ∀ v < 16, 10 ≤ v → (hexDigit v).toNat = 0x61 + (v - 10) := by decide

theorem hexByte_eq_nibbles (b : Byte) :
    hexByte b = [hexDigit (b.extractLsb' 4 4).toNat, hexDigit (b.extractLsb' 0 4).toNat] := by
  have bound := b.isLt
  have high : b.toNat / 16 % 16 = b.toNat / 16 := by omega
  simp [hexByte, Nat.shiftRight_eq_div_pow, high]

/-- The two characters of byte `i` stand at `2i` and `2i + 1` (R171). -/
theorem hexEncode_getD {d : List Byte} {i : Nat} (hi : i < d.length) :
    [(hexEncode d).getD (2 * i) 0, (hexEncode d).getD (2 * i + 1) 0] = hexByte (d.getD i 0) := by
  induction d generalizing i with
  | nil => cases hi
  | cons b d ih =>
    cases i with
    | zero => rfl
    | succ i => exact ih (Nat.lt_of_succ_lt_succ hi)

/-- Settles O59: HEXDIGIT read off its 16 entries, and the encoder byte by byte. -/
theorem hexEncodeByNibbles : Obligations.HexEncodeByNibbles := by
  refine ⟨hexDigit_decimal, fun v low high => hexDigit_letter v high low, fun d => ⟨hexEncode_length d, fun i hi => ?_⟩⟩
  simpa only [hexByte_eq_nibbles, List.cons.injEq, and_true] using hexEncode_getD hi

theorem isHexChar_iff {b : Byte} : isHexChar b = true ↔
    (0x30 ≤ b.toNat ∧ b.toNat ≤ 0x39) ∨ (0x61 ≤ b.toNat ∧ b.toNat ≤ 0x66) ∨ (0x41 ≤ b.toNat ∧ b.toNat ≤ 0x46) := by
  simp [isHexChar, BitVec.le_def, or_assoc]

/-- Settles O60: the check of each byte, read as ranges of its value. -/
theorem hexCheckTakesTwentyTwoCodes : Obligations.HexCheckTakesTwentyTwoCodes := by
  intro t
  simp only [isHex64, List.all_eq_true, isHexChar_iff]

end Sys2Proof.Machine
end

section
/-! PROOFS. The draws and GENKEY (42_rng_iv_genkey.md): the completion of GENKEY, the starved draw, and the whole command from
the write to CMD. -/

namespace Sys2Proof.Machine

/-! ### GENKEY with its draw answered -/

/-- Settles O14: `complete` sets the flags and the phase, `keyOfIndexes` the key, and the rest is `s` after its draw. -/
theorem genkeyEndsWithDrawnKey : Obligations.GenkeyEndsWithDrawnKey := by
  intro s idx answered
  refine ⟨_, exec_genkey s, ?_⟩
  rw [genkeyEnd_of_answered answered]
  exact ⟨keyOfIndexes_get idx, rfl, rfl, rfl, rfl, rfl, rfl, rfl, rfl, rfl, rfl, fun _ => rfl, fun _ => rfl, rfl⟩

/-! ### The starved draw -/

/-- Either command that draws ends by the fatal failure when its draw is never answered (R196). -/
theorem exec_of_starved {s : State} {i : Instr}
    (h : (i = .genkey ∧ drawIndexes s = none) ∨ (i = .encrypt ∧ drawBytes s = none)) :
    exec i s = .next (raise .entropyFatal (afterDraw s)) := by
  obtain ⟨rfl, starved⟩ | ⟨rfl, starved⟩ := h
  · rw [exec_genkey, genkeyEnd_of_starved starved]
  · rw [exec_encrypt, encryptEnd_of_starved starved]

/-- Every effect but reset and `nothing` needs IDLE or BUSY, so in FATAL a step changes nothing of the core (R25, R65). -/
theorem sameCore_of_step_fatal {s t : State} (fatal : s.phase = .fatal) (run : step s = .next t)
    (notReset : nextLine s ≠ some .reset) : SameCore s t := by
  have notIdle : s.phase ≠ .idle := by rw [fatal]; decide
  have notBusy : s.phase ≠ .busy := by rw [fatal]; decide
  cases step_effect run with
  | nothing e => rfl
  | cmdWrite e v idle => exact absurd idle notIdle
  | ilenWrite e l idle => exact absurd idle notIdle
  | keyWrite e k idle => exact absurd idle notIdle
  | ibufWrite e i b idle => exact absurd idle notIdle
  | command e i next => exact absurd next.1 notBusy
  | reset e line => exact absurd line notReset

/-- Settles O17: the command ends by `raise .entropyFatal`, which leaves FATAL, from which only reset leads. -/
theorem starvedDrawIsFatal : Obligations.StarvedDrawIsFatal := by
  intro s i starved
  refine ⟨_, exec_of_starved starved, rfl, rfl, rfl, rfl, rfl, rfl, fun _ => rfl, rfl, ?operands, rfl, ?stuck⟩
  case operands => simp [SameOperands]
  case stuck =>
    intro ls u run notReset
    exact sameCore_of_step_fatal (s := withScript ls _) rfl run notReset

/-! ### The whole command -/

/-- GENKEY passes every check of accept (R251). -/
theorem accept_genkey (s : State) : accept 0x01 s = latch 0x01 (clearOutput (clearFlags s)) := by
  rw [accept, check_eq, if_pos rfl]

/-- `s` with GENKEY taken, the lines `ls` still to come. -/
def genkeyTaken (ls : List Line) (s : State) : State := latch 0x01 (clearOutput (clearFlags (withScript ls s)))

theorem step_genkeyWrite {s : State} {ls : List Line} (script : s.env.script = .csrWrite 0x00 (.byte 0x01) :: ls)
    (idle : s.phase = .idle) : step s = .next (genkeyTaken ls s) := by
  rw [step_cmdWrite script idle, accept_genkey, genkeyTaken]

theorem step_genkeyTaken (ls : List Line) (s : State) :
    step (genkeyTaken (.seq :: ls) s) = .next (genkeyEnd (genkeyTaken ls s)) := by
  rw [step_seq rfl rfl]
  exact seqStep_of_opcode (i := .genkey) rfl

@[simp] theorem drawIndexes_genkeyTaken (ls : List Line) (s : State) : drawIndexes (genkeyTaken ls s) = drawIndexes s := rfl

/-- Accept has emptied OBUF, and GENKEY stores nothing there (R195, R250). -/
theorem genkeyTaken_ends_without_output (ls : List Line) (s : State) :
    (genkeyEnd (genkeyTaken ls s)).olen = 0 ∧ (genkeyEnd (genkeyTaken ls s)).obuf = [] :=
  (genkeyEnd_output (genkeyTaken ls s)).elim id id

/-- Settles O15: accept and the SEQ step one after the other; the two ends are those of GENKEY by its draw,
read field by field. -/
theorem genkeyCommandRuns : Obligations.GenkeyCommandRuns := by
  intro s ls idle script
  obtain ⟨olen, obuf⟩ := genkeyTaken_ends_without_output ls s
  have input := genkeyEnd_keepsInput (genkeyTaken ls s)
  refine ⟨_, _, step_genkeyWrite script idle, rfl, rfl, rfl, rfl, rfl, step_genkeyTaken ls s, olen,
    fun a => by rw [obuf, read_nil], input.ilen, fun a => by rw [input.ibuf]; rfl, ?answered, ?starved⟩
  case answered =>
    intro idx answered
    rw [genkeyEnd_of_answered ((drawIndexes_genkeyTaken ls s).trans answered)]
    simp [genkeyTaken, isKeyChar_charset]
  case starved =>
    intro starved
    rw [genkeyEnd_of_starved ((drawIndexes_genkeyTaken ls s).trans starved)]
    simp [genkeyTaken]

end Sys2Proof.Machine
end

section
/-! PROOFS. The blob and ENCRYPT (43_blob_encrypt.md): the fields of the blob by position, and the completion of ENCRYPT. -/

namespace Sys2Proof.Machine

/-! ### The blob's fields by position -/

/-- The bytes of `b` in `a ++ b ++ c` are those from `i` to `j`, when `a` has `i` bytes and `a` and `b` together `j`. -/
theorem slice_append_middle (a b c : List Byte) {i j : Nat} (start : i = a.length) (stop : j = i + b.length) :
    slice (a ++ b ++ c) i j = b := by
  subst start stop
  rw [slice, ← List.length_append, List.take_left, List.drop_left]

theorem slice_serialize_iv (iv : Block) (c tag : List Byte) : slice (serialize iv c tag) 0 16 = iv.toBytes := by
  rw [serialize, List.append_assoc]
  exact slice_append_middle [] iv.toBytes (c ++ tag) rfl rfl

theorem slice_serialize_ciphertext (iv : Block) (c tag : List Byte) :
    slice (serialize iv c tag) 16 (16 + c.length) = c := slice_append_middle iv.toBytes c tag rfl rfl

theorem slice_serialize_tag (iv : Block) (c tag : List Byte) :
    slice (serialize iv c tag) (16 + c.length) (16 + c.length + tag.length) = tag := by
  rw [serialize, ← List.append_nil (_ ++ tag)]
  exact slice_append_middle (iv.toBytes ++ c) tag [] (by rw [List.length_append, toBytes_length]) rfl

@[simp] theorem blobIv_serialize (iv : Block) (c tag : List Byte) : blobIv (serialize iv c tag) = iv := by
  rw [blobIv, slice_serialize_iv, ofBytes_toBytes]

/-- The deserializer counts the ciphertext's end from the blob's end, 64 bytes before it (R101). -/
theorem blobCiphertext_serialize (iv : Block) (c : List Byte) {tag : List Byte} (h : tag.length = 64) :
    blobCiphertext (serialize iv c tag) = c := by
  rw [blobCiphertext, serialize_length, h, Nat.add_sub_cancel, slice_serialize_ciphertext]

/-- The deserializer's tag is the last 64 bytes of the blob (R101). -/
theorem blobTag_serialize (iv : Block) (c : List Byte) {tag : List Byte} (h : tag.length = 64) :
    blobTag (serialize iv c tag) = tag := by
  have byPosition := slice_serialize_tag iv c tag
  rwa [blobTag, serialize_length, h, Nat.add_sub_cancel, ← h]

/-- Settles O20: each field by its position from the front, and the deserializer's positions are the same ones. -/
theorem serializedFieldsByPosition : Obligations.SerializedFieldsByPosition := by
  intro iv c tag h
  have tagByPosition := slice_serialize_tag iv c tag
  rw [h] at tagByPosition
  exact ⟨by rw [serialize_length, h], slice_serialize_iv iv c tag, slice_serialize_ciphertext iv c tag, tagByPosition,
    blobIv_serialize iv c tag, blobCiphertext_serialize iv c h, blobTag_serialize iv c h⟩

/-! ### ENCRYPT with its draw answered -/

theorem encryptBlob_length (k iv : Block) (p : List Byte) :
    (encryptBlob k p iv).length = 96 + 16 * (p.length / 16) := by
  simp only [encryptBlob, serialize_length, cbcEncrypt_length, pad_length, digest64_length]
  omega

/-- A byte string stored from index 0 on leaves every byte behind it as it was. -/
theorem read_memWrite_of_length_le {m : Memory} (hm : Memory.wf m = true) {bs : List Byte} {a : Nat}
    (h : bs.length ≤ a) : Memory.read (memWrite m 0 bs) a = Memory.read m a := by
  rw [read_memWrite hm, if_neg (by omega)]

/-- ENCRYPT stores the blob from index 0 of OBUF on, with OLEN its length (R210). -/
theorem encryptEnd_output {s : State} {iv : Block} (answered : drawBytes s = some iv) :
    (encryptEnd s).obuf = memWrite s.obuf 0 (encryptBlob s.key (inputBytes s) iv) ∧
      (encryptEnd s).olen = (encryptBlob s.key (inputBytes s) iv).length := by
  rw [encryptEnd_of_answered answered]
  exact ⟨by rw [complete_obuf], by rw [complete_olen]⟩

/-- Settles O18: the output is the stored blob, OLEN its length, and the rest is `s` after its draw. -/
theorem encryptEndsWithBlob : Obligations.EncryptEndsWithBlob := by
  intro s iv answered wf
  obtain ⟨obuf, olen⟩ := encryptEnd_output answered
  have operands := (encryptEnd_keepsOperands s).sameOperands
  refine ⟨_, exec_encrypt s, outputBytes_of_stored wf obuf olen, ?length, fun a behind => ?frame, ?_⟩
  case length => rw [olen, encryptBlob_length, inputBytes, memRead_length]
  case frame => rw [obuf, read_memWrite_of_length_le wf (olen ▸ behind)]
  rw [encryptEnd_of_answered answered] at operands ⊢
  exact ⟨rfl, rfl, rfl, rfl, rfl, rfl, operands, rfl⟩

end Sys2Proof.Machine
end

section
/-! PROOFS. The blob and DECRYPT (44_blob_decrypt.md): what the decision list answers, the two ends of DECRYPT, and the round
trip. -/

namespace Sys2Proof.Machine

/-! ### The decision list -/

@[simp] theorem inputBytes_length (s : State) : (inputBytes s).length = s.ilen := memRead_length _ _ _

theorem blobCiphertext_length (b : List Byte) : (blobCiphertext b).length = b.length - 80 := by
  rw [blobCiphertext, slice_length]
  omega

/-- A byte string that passes the checks before decryption: the three lengths of R243 and the hex check of R173. -/
def WellFramed (b : List Byte) : Prop := 96 ≤ b.length ∧ (b.length - 80) % 16 = 0 ∧ isHex64 (blobTag b) = true

/-- What DECRYPT gives to Unpad: the ciphertext field decrypted under `k` from the IV field on. -/
def paddedPlaintext (k : Block) (b : List Byte) : List Byte := cbcDecrypt k (blobIv b) (blobCiphertext b)

/-- The framing in the order of the decision list's first two cases (R244). -/
theorem wellFramed_iff {b : List Byte} : WellFramed b ↔ ¬b.length < 80 ∧
    ¬(isHex64 (blobTag b) = false ∨ b.length = 80 ∨ (b.length - 80) % 16 ≠ 0) := by
  rw [WellFramed]
  cases isHex64 (blobTag b) with
  | false => simp
  | true =>
    simp only [reduceCtorEq, false_or, and_true]
    omega

theorem decryptBlob_of_not_wellFramed {k : Block} {b : List Byte} (h : ¬WellFramed b) :
    decryptBlob k b = .error .malformedBlob := by
  rw [decryptBlob, blobCiphertext_length, Config.minBlob]
  split_ifs with short notHex ragged
  · rfl
  · rfl
  · rfl
  · exact absurd ⟨by omega, by omega, by simpa using notHex⟩ h

theorem decryptBlob_of_wellFramed {k : Block} {b : List Byte} (h : WellFramed b) :
    decryptBlob k b = (unpad (paddedPlaintext k b)).elim (.error .decryptionFailed)
      fun p => if digest64 p ≠ blobTag b then .error .integrityMismatch else .ok p := by
  obtain ⟨long, aligned, hex⟩ := h
  rw [decryptBlob, blobCiphertext_length, Config.minBlob, if_neg (by omega), if_neg (by simp [hex]), if_neg (by omega),
    ← paddedPlaintext]
  cases unpad (paddedPlaintext k b) <;> rfl

/-- DECRYPT returns `p` for exactly the byte strings that pass every step with `p` (R230 to R238). -/
theorem decryptBlob_eq_ok_iff {k : Block} {b p : List Byte} : decryptBlob k b = .ok p ↔
    WellFramed b ∧ unpad (paddedPlaintext k b) = some p ∧ digest64 p = blobTag b := by
  by_cases framed : WellFramed b
  · rw [decryptBlob_of_wellFramed framed]
    cases unpad (paddedPlaintext k b) with
    | none => simp
    | some q =>
      rw [Option.elim_some, Option.some_inj]
      constructor
      · intro answer
        split_ifs at answer with differs
        cases answer
        exact ⟨framed, rfl, not_not.1 differs⟩
      · rintro ⟨-, rfl, same⟩
        rw [if_neg (not_not.2 same)]
  · simp [decryptBlob_of_not_wellFramed framed, framed]

/-! ### The two ends of DECRYPT -/

/-- A failure of the decision list ends in IDLE with its code; DONE stays as it was (R244, R266). -/
theorem decryptEnd_fails {s : State} {e : Failure} (h : decryptBlob s.key (inputBytes s) = .error e) :
    EndedWithFailure e.code (decryptEnd s) ∧ (decryptEnd s).done = s.done := by
  have idle : e.endPhase = .idle := by
    obtain rfl | rfl | rfl := decryptBlob_failures h <;> rfl
  rw [decryptEnd_of_error h]
  exact ⟨⟨idle, rfl, rfl, rfl⟩, rfl⟩

/-- DECRYPT stores the plaintext from index 0 of OBUF on, with OLEN its length (R237). -/
theorem decryptEnd_output {s : State} {p : List Byte} (h : decryptBlob s.key (inputBytes s) = .ok p) :
    (decryptEnd s).obuf = memWrite s.obuf 0 p ∧ (decryptEnd s).olen = p.length := by
  rw [decryptEnd_of_ok h]
  exact ⟨complete_obuf _, complete_olen _⟩

theorem outputBytes_decryptEnd {s : State} {p : List Byte} (wf : Memory.wf s.obuf = true)
    (h : decryptBlob s.key (inputBytes s) = .ok p) : outputBytes (decryptEnd s) = p := by
  obtain ⟨obuf, olen⟩ := decryptEnd_output h
  exact outputBytes_of_stored wf obuf olen

/-- A completion sets DONE and leaves ERROR, ERR and the bytes behind the stored ones as they were (R27, R244). -/
theorem decryptEnd_succeeds {s : State} {p : List Byte} (wf : Memory.wf s.obuf = true)
    (h : decryptBlob s.key (inputBytes s) = .ok p) :
    (decryptEnd s).done = true ∧ (decryptEnd s).error = s.error ∧ (decryptEnd s).err = s.err ∧
      outputBytes (decryptEnd s) = p ∧ (decryptEnd s).olen = p.length ∧
      ∀ a, (decryptEnd s).olen ≤ a → Memory.read (decryptEnd s).obuf a = Memory.read s.obuf a := by
  obtain ⟨obuf, olen⟩ := decryptEnd_output h
  refine ⟨?done, ?error, ?err, outputBytes_decryptEnd wf h, olen, fun a behind => ?frame⟩
  case frame => rw [obuf, read_memWrite_of_length_le wf (olen ▸ behind)]
  all_goals rw [decryptEnd_of_ok h]; rfl

/-- Either end of DECRYPT is in IDLE with CMDL and the working registers zero, no draw made (R37, R244). -/
theorem decryptEnd_idle (s : State) : (decryptEnd s).cmdl = 0x00 ∧ (decryptEnd s).work = zeroWork ∧
    (decryptEnd s).env = { s.env with rng := none } ∧ (decryptEnd s).phase = .idle := by
  cases h : decryptBlob s.key (inputBytes s) with
  | ok p => rw [decryptEnd_of_ok h]; exact ⟨rfl, rfl, rfl, rfl⟩
  | error e =>
    obtain ⟨⟨idle, -⟩, -⟩ := decryptEnd_fails h
    rw [decryptEnd_of_error h] at idle ⊢
    exact ⟨rfl, rfl, rfl, idle⟩

theorem blobTag_inputBytes (s : State) : blobTag (inputBytes s) = slice (inputBytes s) (s.ilen - 64) s.ilen := by
  rw [blobTag, inputBytes_length]

theorem paddedPlaintext_inputBytes (s : State) : paddedPlaintext s.key (inputBytes s) =
    cbcDecrypt s.key (Block.ofBytes (slice (inputBytes s) 0 16)) (slice (inputBytes s) 16 (s.ilen - 64)) := by
  rw [paddedPlaintext, blobIv, blobCiphertext, inputBytes_length]

/-- Settles O22: the list's cases from the top, each the answer of `decryptBlob` and with it one of the two ends. -/
theorem decryptFollowsDecisionList : Obligations.DecryptFollowsDecisionList := by
  intro s wf
  obtain ⟨cmdl, work, env, idle⟩ := decryptEnd_idle s
  refine ⟨_, exec_decrypt s, (decryptEnd_keepsOperands s).sameOperands, cmdl, work, env, idle, ?_⟩
  rw [← blobTag_inputBytes, ← paddedPlaintext_inputBytes]
  have malformed (h : ¬WellFramed (inputBytes s)) := decryptEnd_fails (decryptBlob_of_not_wellFramed h)
  have framed_iff := wellFramed_iff (b := inputBytes s)
  rw [inputBytes_length] at framed_iff
  split_ifs with short bad
  · exact malformed fun framed => (framed_iff.1 framed).1 short
  · exact malformed fun framed => (framed_iff.1 framed).2 bad
  have framed := framed_iff.2 ⟨short, bad⟩
  have answer := decryptBlob_of_wellFramed (k := s.key) framed
  cases unpadded : unpad (paddedPlaintext s.key (inputBytes s)) with
  | none => exact decryptEnd_fails (e := .decryptionFailed) (by rw [answer, unpadded, Option.elim_none])
  | some p =>
    by_cases differs : digest64 p ≠ blobTag (inputBytes s)
    · simp only [if_pos differs]
      exact decryptEnd_fails (e := .integrityMismatch) (by rw [answer, unpadded, Option.elim_some, if_pos differs])
    · simp only [if_neg differs]
      exact decryptEnd_succeeds wf (decryptBlob_eq_ok_iff.2 ⟨framed, unpadded, not_not.1 differs⟩)

/-- Settles O23: each of the three lengths fails the framing, whatever the tag. -/
theorem malformedLengthsFail : Obligations.MalformedLengthsFail := by
  intro s lengths
  have notFramed : ¬WellFramed (inputBytes s) := by
    rw [WellFramed, inputBytes_length]
    omega
  obtain ⟨failed, done⟩ := decryptEnd_fails (decryptBlob_of_not_wellFramed notFramed)
  exact ⟨_, exec_decrypt s, failed, done, (decryptEnd_keepsOperands s).sameOperands⟩

/-- A well-framed blob has a ciphertext of at least one block, whole blocks only. -/
theorem paddedPlaintext_length {k : Block} {b : List Byte} (h : WellFramed b) :
    (paddedPlaintext k b).length = b.length - 80 := by
  obtain ⟨-, aligned, -⟩ := h
  rw [paddedPlaintext, cbcDecrypt_length, blobCiphertext_length]
  omega

/-- On a well-framed blob, Unpad answers `p` only for `Pad(p)` (R146). -/
theorem pad_eq_of_unpad_paddedPlaintext {k : Block} {b p : List Byte} (h : WellFramed b)
    (unpadded : unpad (paddedPlaintext k b) = some p) : pad p = paddedPlaintext k b := by
  have length := paddedPlaintext_length (k := k) h
  obtain ⟨long, aligned, -⟩ := h
  have nonempty : paddedPlaintext k b ≠ [] := List.ne_nil_of_length_pos (by omega)
  exact ((unpadAcceptsExactlyPadded.2 _ p nonempty (by omega)).1 unpadded).symm

/-- Settles O24: DONE rose, so the decision list answered a plaintext, and that only if every step passed. -/
theorem decryptSuccessMeans : Obligations.DecryptSuccessMeans := by
  intro s t wf notDone run done
  cases run
  cases h : decryptBlob s.key (inputBytes s) with
  | error e =>
    obtain ⟨-, kept⟩ := decryptEnd_fails h
    simp [kept, notDone] at done
  | ok p =>
    obtain ⟨framed, unpadded, tag⟩ := decryptBlob_eq_ok_iff.1 h
    have padded := pad_eq_of_unpad_paddedPlaintext framed unpadded
    obtain ⟨long, aligned, -⟩ := framed
    rw [inputBytes_length] at long aligned
    rw [outputBytes_decryptEnd wf h, ← blobTag_inputBytes, ← paddedPlaintext_inputBytes]
    exact ⟨long, aligned, padded, tag⟩

/-! ### The round trip -/

theorem blobTag_encryptBlob (k iv : Block) (p : List Byte) : blobTag (encryptBlob k p iv) = digest64 p :=
  blobTag_serialize iv _ (digest64_length p)

theorem wellFramed_encryptBlob (k iv : Block) (p : List Byte) : WellFramed (encryptBlob k p iv) := by
  obtain ⟨-, -, hex, -⟩ := digestFieldIsLowercaseHex p
  rw [WellFramed, encryptBlob_length, blobTag_encryptBlob]
  exact ⟨by omega, by omega, hex⟩

/-- DECRYPT's cipher takes ENCRYPT's off again (R143). -/
theorem paddedPlaintext_encryptBlob (k iv : Block) (p : List Byte) : paddedPlaintext k (encryptBlob k p iv) = pad p := by
  rw [paddedPlaintext, encryptBlob, blobIv_serialize, blobCiphertext_serialize iv _ (digest64_length p)]
  exact cbcDecryptUndoesEncrypt k iv _ (by rw [pad_length]; omega)

/-- `Decrypt(K, Encrypt(K, P, iv)) = P` (R240). -/
theorem decryptBlob_encryptBlob (k iv : Block) (p : List Byte) : decryptBlob k (encryptBlob k p iv) = .ok p :=
  decryptBlob_eq_ok_iff.2 ⟨wellFramed_encryptBlob k iv p, by rw [paddedPlaintext_encryptBlob, unpad_pad],
    (blobTag_encryptBlob k iv p).symm⟩

/-- ENCRYPT's blob is its output, hence the input of DECRYPT. -/
theorem outputBytes_encryptEnd {s : State} {iv : Block} (answered : drawBytes s = some iv) (wf : Memory.wf s.obuf = true) :
    outputBytes (encryptEnd s) = encryptBlob s.key (inputBytes s) iv := by
  obtain ⟨obuf, olen⟩ := encryptEnd_output answered
  exact outputBytes_of_stored wf obuf olen

/-- Settles O25: the input of `u` is the blob, so the decision list answers ENCRYPT's plaintext. -/
theorem encryptThenDecryptReturnsPlaintext : Obligations.EncryptThenDecryptReturnsPlaintext := by
  intro s t u iv answered swf run key ilen bytes uwf
  cases run
  have input : inputBytes u = encryptBlob s.key (inputBytes s) iv := by
    rw [← outputBytes_encryptEnd answered swf, inputBytes, outputBytes, ilen, memRead_congr bytes]
  have h : decryptBlob u.key (inputBytes u) = .ok (inputBytes s) := by rw [key, input, decryptBlob_encryptBlob]
  obtain ⟨done, error, -, output, olen, -⟩ := decryptEnd_succeeds uwf h
  obtain ⟨-, -, -, idle⟩ := decryptEnd_idle u
  exact ⟨_, exec_decrypt u, done, error, idle, by rw [olen, inputBytes_length], output⟩

end Sys2Proof.Machine
end

section
/-! PROOFS. CLEAR and the dispatch of commands (45_clear_and_dispatch.md): accept with its checks in order, the SEQ step of the
command in flight, how a command ends, and the moves of PHASE. -/

namespace Sys2Proof.Machine

/-! ### Accept -/

/-- The checks as R251 lists them: the opcode first, then the key, then the length. -/
theorem check_eq_in_order (v : Byte) (s : State) : check v s =
    if v ≠ 0x01 ∧ v ≠ 0x02 ∧ v ≠ 0x03 ∧ v ≠ 0x04 then some .illegalCommand
    else if (v = 0x02 ∨ v = 0x03) ∧ s.keyValid = false then some .noKey
    else if (v = 0x02 ∧ s.ptMax.val < s.ilen) ∨ (v = 0x03 ∧ bufCap s.ptMax < s.ilen) then some .lengthRange
    else none := by
  by_cases illegal : v ≠ 0x01 ∧ v ≠ 0x02 ∧ v ≠ 0x03 ∧ v ≠ 0x04
  · obtain ⟨n1, n2, n3, n4⟩ := illegal
    rw [if_pos ⟨n1, n2, n3, n4⟩, check_eq, if_neg n1, if_neg n2, if_neg n3, if_neg n4]
  · rw [if_neg illegal, check_eq]
    obtain rfl | rfl | rfl | rfl : v = 0x01 ∨ v = 0x02 ∨ v = 0x03 ∨ v = 0x04 := by tauto
    all_goals simp

theorem check_clear (s : State) : check 0x04 s = none := check_eq 0x04 s

/-- The end of a protocol error is in IDLE: no check yields the fatal failure (R264, R266). -/
theorem endPhase_of_check {v : Byte} {s : State} {e : Failure} (failed : check v s = some e) : e.endPhase = .idle := by
  obtain rfl | rfl | rfl := check_ne_fatal failed <;> rfl

theorem accept_of_check_none {v : Byte} {s : State} (passed : check v s = none) :
    accept v s = latch v (clearOutput (clearFlags s)) := by rw [accept, passed]

/-- A protocol error ends the command at once, in IDLE with its code (R250, R266). -/
theorem accept_of_check_some {v : Byte} {s : State} {e : Failure} (failed : check v s = some e) :
    EndedWithFailure e.code (accept v s) ∧ (accept v s).cmdl = 0x00 ∧ (accept v s).work = zeroWork := by
  rw [accept, failed]
  exact ⟨⟨endPhase_of_check failed, rfl, rfl, rfl⟩, rfl, rfl⟩

/-- Accept clears DONE and the output for every value, legal or not (R250). -/
theorem accept_clears (v : Byte) (s : State) :
    (accept v s).done = false ∧ (accept v s).olen = 0 ∧ (accept v s).obuf = [] := by
  obtain ⟨e, -, h⟩ | ⟨-, h⟩ := accept_cases v s <;> rw [h] <;> exact ⟨rfl, rfl, rfl⟩

/-- Settles O6: the write is `accept`, and the chain of conditions is that of the checks, each with its end. -/
theorem acceptAppliesChecksInOrder : Obligations.AcceptAppliesChecksInOrder := by
  intro s v ls idle script
  obtain ⟨done, olen, obuf⟩ := accept_clears v (withScript ls s)
  have checked := check_withScript v ls s
  rw [check_eq_in_order v s, bufCap] at checked
  refine ⟨_, step_cmdWrite script idle, done, olen, fun a => by rw [obuf, read_nil],
    (accept_keepsOperands v (withScript ls s)).sameOperands, accept_env v _, ?_⟩
  split_ifs at checked ⊢ with illegal noKey range
  · exact accept_of_check_some checked
  · exact accept_of_check_some checked
  · exact accept_of_check_some checked
  · rw [accept_of_check_none checked]
    exact ⟨rfl, rfl, rfl, rfl, rfl⟩

/-! ### The SEQ step -/

theorem withScript_of_script_eq {s : State} {ls : List Line} (h : s.env.script = ls) : withScript ls s = s := by
  rw [← h]
  rfl

/-- The SEQ step, whether the script says it or says nothing more: only that line is taken (R252; log entry 6). -/
theorem step_of_seqNext {s : State} (next : SeqNext s) : step s = seqStep (withScript s.env.script.tail s) := by
  obtain ⟨busy, line | noLine⟩ := next
  · obtain ⟨ls, script⟩ := List.head?_eq_some_iff.1 line
    rw [step_seq script busy, script, List.tail_cons]
  · have script : s.env.script = [] := List.head?_eq_none_iff.1 noLine
    rw [step_unscripted_busy script busy, script, List.tail_nil, withScript_of_script_eq script]

/-- Settles O3: either SEQ step is the command that CMDL decodes to, the script being no part of CMDL. -/
theorem stepRunsDecodedCommand : Obligations.StepRunsDecodedCommand := by
  intro s i rest busy decoded
  refine ⟨fun ls script => ?said, fun script => ?unsaid⟩
  case said => rw [step_seq script busy, seqStep_of_decode (s := withScript ls s) decoded]
  case unsaid => rw [step_unscripted_busy script busy, seqStep_of_decode decoded]

/-! ### How a command ends -/

/-- The commands that draw, by the opcode in CMDL (R190, R196). -/
theorem starves_iff {s : State} {i : Instr} (latched : s.cmdl = i.opcode) :
    Starves s ↔ (i = .genkey ∧ drawIndexes s = none) ∨ (i = .encrypt ∧ drawBytes s = none) := by
  rw [Starves, latched]
  cases i <;> simp [Instr.opcode]

/-- A command whose draw is answered, or that draws nothing, ends in IDLE (R252). -/
theorem exec_idle_of_not_starves {s t : State} {i : Instr} (latched : s.cmdl = i.opcode) (run : exec i s = .next t)
    (answered : ¬Starves s) : t.phase = .idle := by
  rw [starves_iff latched] at answered
  cases i with
  | genkey =>
    cases run
    obtain ⟨idx, -, h⟩ | ⟨starved, -⟩ := genkeyEnd_cases s
    · rw [h, complete_phase]
    · exact absurd (.inl ⟨rfl, starved⟩) answered
  | encrypt =>
    cases run
    obtain ⟨iv, -, h⟩ | ⟨starved, -⟩ := encryptEnd_cases s
    · rw [h, complete_phase]
    · exact absurd (.inr ⟨rfl, starved⟩) answered
  | decrypt =>
    cases run
    obtain ⟨-, -, -, idle⟩ := decryptEnd_idle s
    exact idle
  | clear => cases run; rfl

/-- A command whose draw is never answered ends in FATAL (R196). -/
theorem exec_fatal_of_starves {s t : State} {i : Instr} (latched : s.cmdl = i.opcode) (run : exec i s = .next t)
    (starved : Starves s) : t.phase = .fatal := by
  rw [exec_of_starved ((starves_iff latched).1 starved)] at run
  cases run
  rfl

/-- A command ends with exactly one of DONE and ERROR set: an end sets one, and `Inv` keeps the two apart (R27, R28). -/
theorem exec_sets_one_flag {s t : State} {i : Instr} (run : exec i s = .next t) (inv : Inv t) :
    t.done = true ∧ t.error = false ∨ t.done = false ∧ t.error = true := by
  have apart := inv.not_both
  obtain ⟨u, rfl⟩ | ⟨e, u, rfl⟩ := exec_ends run
  · exact .inl ⟨rfl, Bool.eq_false_iff.2 fun error => apart ⟨rfl, error⟩⟩
  · exact .inr ⟨Bool.eq_false_iff.2 fun done => apart ⟨done, rfl⟩, rfl⟩

/-- What the SEQ step that leads from `s` to `t` leaves: the command over, in IDLE, or in FATAL if its draw was
never answered (R252). -/
structure CommandOver (s t : State) : Prop where
  inv : Inv t
  zeroised : t.cmdl = 0x00 ∧ t.work = zeroWork
  one_flag : t.done = true ∧ t.error = false ∨ t.done = false ∧ t.error = true
  idle : ¬Starves s → t.phase = .idle
  fatal : Starves s → t.phase = .fatal

/-- The draw does not look at the script. -/
theorem starves_withScript (ls : List Line) (s : State) : Starves (withScript ls s) ↔ Starves s := Iff.rfl

/-- The SEQ step from a state of `Inv` ends the command in CMDL (R252). -/
theorem Inv.commandOver {s t : State} (h : Inv s) (next : SeqNext s) (run : step s = .next t) : CommandOver s t := by
  rw [step_of_seqNext next] at run
  have locked : Inv (withScript s.env.script.tail s) := h.withEnv _
  obtain ⟨i, latched, run⟩ := seqStep_exec run
  have inv := locked.after_exec next.1 latched run
  have starves := starves_withScript s.env.script.tail s
  exact
    { inv
      zeroised := exec_zeroised run
      one_flag := exec_sets_one_flag run inv
      idle := fun answered => exec_idle_of_not_starves latched run (answered ∘ starves.1)
      fatal := fun starved => exec_fatal_of_starves latched run (starves.2 starved) }

/-- Settles O30: outside BUSY and by opcode the step is read off the SEQ line; it answers by `Inv`, and how it ends is
`CommandOver`, by whether the draw starves. -/
theorem sequencerStepEndsCommand : Obligations.SequencerStepEndsCommand := by
  intro s ls script
  have dispatch (busy : s.phase = .busy) (i : Instr) (latched : s.cmdl = i.opcode) :
      step s = exec i (withScript ls s) := by
    rw [step_seq script busy, seqStep_of_opcode (s := withScript ls s) latched]
  refine ⟨step_seq_refused script, fun busy => ?dispatched, fun busy h => ?ended⟩
  case dispatched => exact ⟨dispatch busy .genkey, dispatch busy .encrypt, dispatch busy .decrypt, dispatch busy .clear⟩
  case ended =>
    obtain ⟨t, run⟩ : ∃ t, step s = .next t := by
      rw [step_seq script busy]
      exact (h.withEnv _).seqStep_answers (s := withScript ls s) busy
    have result := h.commandOver ⟨busy, .inl (nextLine_of_cons script)⟩ run
    obtain ⟨cmdl, work⟩ := result.zeroised
    refine ⟨t, run, cmdl, work, ?_⟩
    by_cases starved : Starves s
    · have fatal := result.fatal starved
      obtain ⟨error, -, -⟩ := result.inv.fatal_mark fatal
      exact .inr ⟨fatal, Bool.eq_false_iff.2 fun done => result.inv.not_both ⟨done, error⟩, error, starved⟩
    · exact .inl ⟨result.idle starved, result.one_flag⟩

/-! ### The moves of PHASE -/

/-- Outside IDLE only the SEQ step and reset change the core (R65, R252). -/
theorem sameCore_of_step_not_idle {s t : State} (notIdle : s.phase ≠ .idle) (notSeq : ¬SeqNext s)
    (notReset : nextLine s ≠ some .reset) (run : step s = .next t) : SameCore s t := by
  cases step_effect run with
  | nothing e => rfl
  | cmdWrite e v idle => exact absurd idle notIdle
  | ilenWrite e l idle => exact absurd idle notIdle
  | keyWrite e k idle => exact absurd idle notIdle
  | ibufWrite e i b idle => exact absurd idle notIdle
  | command e i next => exact absurd next notSeq
  | reset e line => exact absurd line notReset

theorem phase_of_sameCore {s t : State} (h : SameCore s t) : t.phase = s.phase := by rw [h]

theorem phase_of_step_reset {s t : State} (line : nextLine s = some .reset) (run : step s = .next t) : t.phase = .idle := by
  obtain ⟨ls, script⟩ := List.head?_eq_some_iff.1 line
  rw [step_reset script] at run
  cases run
  rfl

/-- From IDLE only a write to CMD leads away (R25, R250). -/
theorem idle_of_step_idle {s t : State} (idle : s.phase = .idle)
    (notCmd : ∀ v, nextLine s ≠ some (.csrWrite 0x00 (.byte v))) (run : step s = .next t) : t.phase = .idle := by
  cases step_effect run with
  | nothing e => exact idle
  | cmdWrite e v _ line => exact absurd line (notCmd v)
  | ilenWrite e l => exact idle
  | keyWrite e k => exact idle
  | ibufWrite e i b => exact idle
  | command e i next => cases idle.symm.trans next.1
  | reset e line => rfl

/-- A write to CMD taken in IDLE is accept, whose checks do not look at the script. -/
theorem step_cmdLine {s t : State} {v : Byte} (idle : s.phase = .idle)
    (line : nextLine s = some (.csrWrite 0x00 (.byte v))) (run : step s = .next t) :
    ∃ u, t = accept v u ∧ check v u = check v s := by
  obtain ⟨ls, script⟩ := List.head?_eq_some_iff.1 line
  rw [step_cmdWrite script idle] at run
  cases run
  exact ⟨_, rfl, check_withScript v ls s⟩

/-- Settles O33: the rows by the PHASE they leave, IDLE by the next line, BUSY by whether the sequencer steps and its draw
is answered. -/
theorem phaseMovesAsTabled : Obligations.PhaseMovesAsTabled := by
  intro s t h run
  refine ⟨fun line => phase_of_step_reset line run, fun idle _ => ⟨fun v line => ?command, fun notCmd => ?other⟩,
    fun busy notReset => ⟨fun next answered => ?ended, fun next starved => ?starved, fun notSeq => ?busy⟩,
    fun fatal notReset => ?fatal⟩
  case command =>
    obtain ⟨u, rfl, same⟩ := step_cmdLine idle line run
    refine ⟨fun passed => ?_, fun e failed => ?_⟩
    · rw [accept_of_check_none (same.trans passed), latch_phase]
    · obtain ⟨⟨phase, error, err, -⟩, -⟩ := accept_of_check_some (same.trans failed)
      exact ⟨phase, error, err⟩
  case other => exact idle_of_step_idle idle notCmd run
  case ended =>
    have result := h.commandOver next run
    exact ⟨result.idle answered, result.one_flag⟩
  case starved => exact (h.commandOver next run).fatal starved
  case busy =>
    have same := sameCore_of_step_not_idle (by rw [busy]; decide) notSeq notReset run
    exact ⟨(phase_of_sameCore same).trans busy, same⟩
  case fatal =>
    have same := sameCore_of_step_fatal fatal run notReset
    exact ⟨(phase_of_sameCore same).trans fatal, same⟩

/-! ### CLEAR -/

@[simp] theorem zeroBlock_get (j : Fin 16) : zeroBlock.get j = 0x00 := ofFn_get (fun _ => 0x00) j

/-- Settles O26: CLEAR always ends in `clearEnd`, read field by field. -/
theorem clearZeroisesOperands : Obligations.ClearZeroisesOperands := by
  intro s
  exact ⟨_, exec_clear s, zeroBlock_get, rfl, rfl, read_nil, rfl, rfl, rfl, rfl, rfl, rfl, rfl, rfl, fun _ => rfl, rfl⟩

/-- A command whose checks pass, taken in IDLE with the SEQ step next, is in flight as the model places it (R250). -/
theorem step_commandLine {s : State} {i : Instr} {ls : List Line} (script : s.env.script = commandLine i :: .seq :: ls)
    (idle : s.phase = .idle) (passed : check i.opcode s = none) :
    step s = .next (inFlight i.opcode (withScript ls s)) := by
  rw [step_cmdWrite script idle, accept_of_check_none ((check_withScript _ _ s).trans passed)]
  rfl

theorem step_inFlight (i : Instr) (s : State) :
    step (inFlight i.opcode s) = exec i (latch i.opcode (clearOutput (clearFlags s))) := by
  rw [step_seq rfl rfl]
  exact seqStep_of_opcode rfl

/-- Accept clears the flags and the output, CLEAR the operands, and its end all the rest but DONE (R250, R254). -/
theorem clearEnd_latch (v : Byte) (s : State) : clearEnd (latch v (clearOutput (clearFlags s))) =
    { State.resetWith s.ptMax with done := true, env := (afterNoDraw s).env } := rfl

theorem statusByte_reset_done (p : Fin Config.ptBound) (e : Env) :
    statusByte { State.resetWith p with done := true, env := e } = 0x02 := by
  simp [statusByte, flagBit, State.resetWith]

/-- Settles O27: CLEAR passes its checks, so the two steps are accept and the SEQ step, the state then as
`clearEnd_latch` has it. -/
theorem clearCommandResetsAllButDone : Obligations.ClearCommandResetsAllButDone := by
  intro s ls _ idle script
  refine ⟨_, _, step_commandLine (i := .clear) script idle (check_clear s), rfl, step_inFlight .clear (withScript ls s), ?_⟩
  rw [clearEnd_latch]
  exact ⟨rfl, statusByte_reset_done s.ptMax _⟩

end Sys2Proof.Machine
end

section
/-! PROOFS. Exceptions (60_exceptions.md): a command that turns ERROR on ends by `raise`, which keeps its operands. -/

namespace Sys2Proof.Machine

/-- A command that turns ERROR on ends by `raise`, with nothing but the agents' side changed before: a completion leaves
ERROR as it was (R27, R266). -/
theorem exec_raises_of_error {i : Instr} {s t : State} (run : exec i s = .next t) (before : s.error = false)
    (after : t.error = true) : ∃ e env, t = raise e { s with env := env } := by
  have notSame : t.error ≠ s.error := by simp [before, after]
  cases i with
  | genkey =>
    cases run
    obtain ⟨idx, -, h⟩ | ⟨-, h⟩ := genkeyEnd_cases s
    · exact absurd (by rw [h]; rfl) notSame
    · exact ⟨_, _, h⟩
  | encrypt =>
    cases run
    obtain ⟨iv, -, h⟩ | ⟨-, h⟩ := encryptEnd_cases s
    · exact absurd (by rw [h]; rfl) notSame
    · exact ⟨_, _, h⟩
  | decrypt =>
    cases run
    obtain ⟨p, -, h⟩ | ⟨e, -, h⟩ := decryptEnd_cases s
    · exact absurd (by rw [h]; rfl) notSame
    · exact ⟨_, _, h⟩
  | clear =>
    cases run
    exact absurd rfl notSame

/-- A failure saves and changes no operand (R266, R267). -/
theorem raise_keepsOperands (e : Failure) (s : State) : KeepsOperands s (raise e s) := ⟨⟨rfl, rfl, rfl⟩, rfl, rfl⟩

/-- Settles O29: the command ends by `raise`, which empties OBUF and stores a code that is never 0x00. -/
theorem failedCommandLeavesNoTrace : Obligations.FailedCommandLeavesNoTrace := by
  intro i s t run before after
  obtain ⟨e, env, rfl⟩ := exec_raises_of_error run before after
  exact ⟨(raise_keepsOperands e { s with env := env }).sameOperands, raise_olen e _, read_nil, raise_done e _, e.code_ne_zero⟩

end Sys2Proof.Machine
end

section
/-! PROOFS. Reset and hazards (70_reset_and_hazards.md): what a host cannot tell apart stays so (R317). One lemma per operation:
from states a host cannot tell apart it leads to such states. -/

namespace Sys2Proof.Machine

section
variable {s t : State} (h : Indistinguishable s t)
include h

/-! ### What a host reads, and what a command takes -/

/-- Every register a host can read is among what the two states agree on, STATUS through its flags (R26, R61). -/
theorem csrReadValue_indistinguishable (n : Nat) : csrReadValue n s = csrReadValue n t := by
  have status : statusByte s = statusByte t := by
    rw [statusByte, statusByte, h.phase, h.done, h.error, h.keyValid]
  rw [csrReadValue.eq_def, csrReadValue.eq_def, status, h.err, h.ilen, h.olen, h.phase, h.key]

/-- A read of OBUF shows nothing at or above OLEN, where the two buffers may differ (R64). -/
theorem obufReadValue_indistinguishable (i : Nat) : obufReadValue i s = obufReadValue i t := by
  rw [obufReadValue, obufReadValue, ← h.phase, ← h.olen]
  split_ifs with shown
  · obtain ⟨-, below⟩ := shown
    exact h.output i below
  · rfl

theorem inputBytes_indistinguishable : inputBytes s = inputBytes t := inputBytes_congr h.ilen fun a _ => h.input a

theorem check_indistinguishable (v : Byte) : check v s = check v t := check_congr h.ptMax h.keyValid h.ilen

/-! ### The updates of single fields -/

theorem indistinguishable_withEnv {e f : Env} (same : e = f) :
    Indistinguishable { s with env := e } { t with env := f } := { h with env := same }

theorem indistinguishable_withScript (ls : List Line) : Indistinguishable (withScript ls s) (withScript ls t) :=
  indistinguishable_withEnv h (by rw [h.env])

theorem indistinguishable_reply (v : CsrValue) : Indistinguishable (reply v s) (reply v t) :=
  indistinguishable_withEnv h (by rw [h.env])

theorem indistinguishable_fixDraw (a : RngAnswer) : Indistinguishable (fixDraw a s) (fixDraw a t) :=
  indistinguishable_withEnv h (by rw [h.env])

theorem indistinguishable_afterDraw : Indistinguishable (afterDraw s) (afterDraw t) :=
  indistinguishable_withEnv h (by rw [h.env])

theorem indistinguishable_afterNoDraw : Indistinguishable (afterNoDraw s) (afterNoDraw t) :=
  indistinguishable_withEnv h (by rw [h.env])

theorem indistinguishable_setKey (k : Block) (valid : Bool) :
    Indistinguishable { s with key := k, keyValid := valid } { t with key := k, keyValid := valid } :=
  { h with key := rfl, keyValid := rfl }

theorem indistinguishable_setIlen (l : Nat) : Indistinguishable { s with ilen := l } { t with ilen := l } :=
  { h with ilen := rfl }

/-- A byte written to IBUF: both buffers stay canonical and go on reading alike (R63). -/
theorem indistinguishable_writeIbuf (i : Nat) (b : Byte) :
    Indistinguishable { s with ibuf := Memory.write s.ibuf i b } { t with ibuf := Memory.write t.ibuf i b } := by
  obtain ⟨sIbuf, tIbuf, obufs⟩ := h.wf
  exact
    { h with
      input := fun a => by rw [read_write sIbuf, read_write tIbuf, h.input a]
      wf := ⟨wf_write i b sIbuf, wf_write i b tIbuf, obufs⟩ }

theorem indistinguishable_clearIbuf : Indistinguishable { s with ibuf := [] } { t with ibuf := [] } := by
  obtain ⟨-, -, obufs⟩ := h.wf
  exact
    { h with
      input := fun _ => rfl
      wf := ⟨wf_nil, wf_nil, obufs⟩ }

/-- With OLEN the length of what was stored, the bytes below OLEN are the stored ones, whatever OBUF held before (R31). -/
theorem indistinguishable_store (bs : List Byte) :
    Indistinguishable { s with obuf := memWrite s.obuf 0 bs, olen := bs.length }
      { t with obuf := memWrite t.obuf 0 bs, olen := bs.length } := by
  obtain ⟨sIbuf, tIbuf, sObuf, tObuf⟩ := h.wf
  have stored {m : Memory} (wf : Memory.wf m = true) {a : Nat} (below : a < bs.length) :
      Memory.read (memWrite m 0 bs) a = bs.getD a 0 := by
    rw [read_memWrite wf, if_pos ⟨a.zero_le, by omega⟩, Nat.sub_zero]
  exact
    { h with
      olen := rfl
      output := fun a below => (stored sObuf below).trans (stored tObuf below).symm
      wf := ⟨sIbuf, tIbuf, wf_memWrite 0 bs sObuf, wf_memWrite 0 bs tObuf⟩ }

theorem indistinguishable_clearOutput : Indistinguishable (clearOutput s) (clearOutput t) := by
  obtain ⟨sIbuf, tIbuf, -⟩ := h.wf
  exact
    { h with
      olen := rfl
      output := fun _ _ => rfl
      wf := ⟨sIbuf, tIbuf, wf_nil, wf_nil⟩ }

theorem indistinguishable_clearFlags : Indistinguishable (clearFlags s) (clearFlags t) :=
  { h with done := rfl, error := rfl, err := rfl }

/-! ### Accept and the ends of a command -/

/-- A latch writes the one register at which later steps look though the two states may differ in it while IDLE (R33). -/
theorem indistinguishable_latch (v : Byte) : Indistinguishable (latch v s) (latch v t) :=
  { h with phase := rfl, latch := fun _ => rfl }

theorem indistinguishable_raise (e : Failure) : Indistinguishable (raise e s) (raise e t) :=
  { indistinguishable_clearOutput h with phase := rfl, error := rfl, err := rfl, latch := fun _ => rfl }

theorem indistinguishable_complete : Indistinguishable (complete s) (complete t) :=
  { h with phase := rfl, done := rfl, latch := fun _ => rfl }

/-- The checks answer the same on both sides, so accept takes the same of its two ends (R250). -/
theorem indistinguishable_accept (v : Byte) : Indistinguishable (accept v s) (accept v t) := by
  have cleared := indistinguishable_clearOutput (indistinguishable_clearFlags h)
  rw [accept, accept, check_indistinguishable h]
  cases check v t with
  | some e => exact indistinguishable_raise cleared e
  | none => exact indistinguishable_latch cleared v

/-! ### The host's writes and reset -/

theorem indistinguishable_csrWriteIdle (n : Nat) (v : CsrValue) :
    Indistinguishable (csrWriteIdle n v s) (csrWriteIdle n v t) := by
  fun_cases csrWriteIdle n v s with
  | case1 b => exact indistinguishable_accept h b
  | case2 l => exact indistinguishable_setIlen h l
  | case3 k => exact indistinguishable_setKey h k true
  | case4 =>
    rename_i notCmd notIlen notKey
    rwa [csrWriteIdle.eq_4 n v t notCmd notIlen notKey]

theorem indistinguishable_csrWrite (n : Nat) (v : CsrValue) : Indistinguishable (csrWrite n v s) (csrWrite n v t) := by
  rw [csrWrite, csrWrite, ← h.phase]
  split_ifs
  · exact indistinguishable_csrWriteIdle h n v
  · exact h

theorem indistinguishable_ibufWrite (i : Nat) (b : Byte) : Indistinguishable (ibufWrite i b s) (ibufWrite i b t) := by
  have taken : (s.phase = .idle ∧ i < bufCap s.ptMax) ↔ (t.phase = .idle ∧ i < bufCap t.ptMax) := by
    rw [h.phase, h.ptMax]
  rw [ibufWrite, ibufWrite, if_congr taken rfl rfl]
  split_ifs
  · exact indistinguishable_writeIbuf h i b
  · exact h

/-- Reset leaves of a state only PT_MAX and the agents' side (R39, R300). -/
theorem indistinguishable_hardReset : Indistinguishable (hardReset s) (hardReset t) := by
  have same : hardReset s = hardReset t := by rw [hardReset, hardReset, h.ptMax, h.env]
  rw [same]
  exact ⟨rfl, rfl, rfl, rfl, rfl, rfl, rfl, rfl, rfl, fun _ _ => rfl, fun _ => rfl, rfl, fun _ => rfl,
    wf_nil, wf_nil, wf_nil, wf_nil⟩

/-! ### The four commands -/

theorem indistinguishable_genkeyEnd : Indistinguishable (genkeyEnd s) (genkeyEnd t) := by
  have drawn := indistinguishable_afterDraw h
  have draw := drawIndexes_congr h.env
  cases answer : drawIndexes t with
  | some idx =>
    rw [genkeyEnd_of_answered (draw.trans answer), genkeyEnd_of_answered answer]
    exact indistinguishable_complete (indistinguishable_setKey drawn (keyOfIndexes idx) true)
  | none =>
    rw [genkeyEnd_of_starved (draw.trans answer), genkeyEnd_of_starved answer]
    exact indistinguishable_raise drawn .entropyFatal

theorem indistinguishable_encryptEnd : Indistinguishable (encryptEnd s) (encryptEnd t) := by
  have drawn := indistinguishable_afterDraw h
  have draw := drawBytes_congr h.env
  cases answer : drawBytes t with
  | some iv =>
    rw [encryptEnd_of_answered (draw.trans answer), encryptEnd_of_answered answer, h.key, inputBytes_indistinguishable h]
    exact indistinguishable_complete (indistinguishable_store drawn _)
  | none =>
    rw [encryptEnd_of_starved (draw.trans answer), encryptEnd_of_starved answer]
    exact indistinguishable_raise drawn .entropyFatal

theorem indistinguishable_decryptEnd : Indistinguishable (decryptEnd s) (decryptEnd t) := by
  have undrawn := indistinguishable_afterNoDraw h
  have blob : decryptBlob s.key (inputBytes s) = decryptBlob t.key (inputBytes t) := by
    rw [h.key, inputBytes_indistinguishable h]
  cases answer : decryptBlob t.key (inputBytes t) with
  | ok p =>
    rw [decryptEnd_of_ok (blob.trans answer), decryptEnd_of_ok answer]
    exact indistinguishable_complete (indistinguishable_store undrawn p)
  | error e =>
    rw [decryptEnd_of_error (blob.trans answer), decryptEnd_of_error answer]
    exact indistinguishable_raise undrawn e

theorem indistinguishable_clearEnd : Indistinguishable (clearEnd s) (clearEnd t) := by
  have noKey := indistinguishable_setKey (indistinguishable_afterNoDraw h) zeroBlock false
  exact indistinguishable_complete (indistinguishable_clearIbuf (indistinguishable_setIlen noKey 0))

theorem exec_related (i : Instr) : OutcomesRelated Indistinguishable (exec i s) (exec i t) := by
  cases i with
  | genkey => exact indistinguishable_genkeyEnd h
  | encrypt => exact indistinguishable_encryptEnd h
  | decrypt => exact indistinguishable_decryptEnd h
  | clear => exact indistinguishable_clearEnd h

/-! ### The step -/

/-- In BUSY the two states agree on CMDL, so the SEQ step carries out the same command or stops alike (R252; log entry 9). -/
theorem seqStep_related (busy : s.phase = .busy) : OutcomesRelated Indistinguishable (seqStep s) (seqStep t) := by
  rw [seqStep, seqStep, h.latch busy]
  cases decode [t.cmdl] with
  | ok decoded =>
    obtain ⟨i, rest⟩ := decoded
    exact exec_related h i
  | error _ => rfl

theorem takeLine_related (l : Line) : OutcomesRelated Indistinguishable (takeLine l s) (takeLine l t) := by
  cases l with
  | csrWrite n v => exact indistinguishable_csrWrite h n v
  | csrRead n =>
    rw [takeLine, takeLine, csrReadValue_indistinguishable h]
    exact indistinguishable_reply h _
  | ibufWrite i b => exact indistinguishable_ibufWrite h i b
  | obufRead i =>
    rw [takeLine, takeLine, obufReadValue_indistinguishable h]
    exact indistinguishable_reply h _
  | seq =>
    rw [takeLine, takeLine, ← h.phase]
    split_ifs with busy
    · exact seqStep_related h busy
    · rfl
  | rng a => exact indistinguishable_fixDraw h a
  | reset => exact indistinguishable_hardReset h

theorem runLine_related (l : Line) : OutcomesRelated Indistinguishable (runLine l s) (runLine l t) := by
  rw [runLine, runLine, ← h.ptMax]
  split_ifs
  · exact takeLine_related h l
  · rfl

theorem runUnscripted_related : OutcomesRelated Indistinguishable (runUnscripted s) (runUnscripted t) := by
  rw [runUnscripted, runUnscripted, ← h.phase]
  cases phase : s.phase with
  | busy => exact seqStep_related h phase
  | idle => exact h
  | fatal => rfl

end

/-- Settles O38: both scripts are the same, so both states take the same line, or both go on without one. -/
theorem hostViewDeterminesBehaviour : Obligations.HostViewDeterminesBehaviour := by
  intro s t h
  cases script : s.env.script with
  | nil =>
    rw [step_of_nil script, step_of_nil (h.env ▸ script)]
    exact runUnscripted_related h
  | cons l ls =>
    rw [step_of_cons script, step_of_cons (h.env ▸ script)]
    exact runLine_related (indistinguishable_withScript h ls) l

end Sys2Proof.Machine
end
